-- ==== Sys2Proof/Word.lean ====
section
/-! DEFINITION. The word types of the block: the bus word, the field element, the byte. -/

namespace Sys2Proof

/-- A bus word: every register and every command is 32 bits (R61, R90). -/
abbrev Word := BitVec 32

/-- A field element `e[4:0]`: a value in 0..31, bit `i` being the coefficient of α^i (R11, R12). -/
abbrev FieldElem := BitVec 5

/-- One byte of a prefix string, or one byte lane of a bus word (R69, R92). -/
abbrev Byte := BitVec 8

end Sys2Proof
end

