-- ==== Sys2Proof/Syntax.lean ====
section
/-! DEFINITION. The ten commands, one constructor for each row of spec/opcode_table.json (R91, R93). -/

namespace Sys2Proof

/-- A command. Operands are the fields of R91, taken unsigned and unscaled from their bits (R92). -/
inductive Instr where
  /-- NOP (R165). -/
  | nop
  /-- INIT: start a new computation (R131). -/
  | init
  /-- FEED e: input one field element (R132). -/
  | feed (e : FieldElem)
  /-- MULX d, a: multiply RESIDUE by x at degree `d` and add `a` (R114). -/
  | mulx (d a : BitVec 5)
  /-- TGT: input the target residue's slots (R133). -/
  | tgt
  /-- UNPACK src, n: read slot `n` of the packed register `src` names (R113, R96). -/
  | unpack (src : BitVec 3) (n : BitVec 5)
  /-- CHECK: test the configuration (R123). -/
  | check
  /-- PFXB n: begin a prefix of `n` bytes (R152). -/
  | pfxb (n : BitVec 16)
  /-- PFXD b: deliver one prefix byte (R153). -/
  | pfxd (b : Byte)
  /-- CLRERR: clear the error record (R166). -/
  | clrerr
  deriving DecidableEq, Repr

end Sys2Proof
end

