-- ==== Sys2Proof/WellFormed.lean ====
section
/-! DEFINITION. Which commands the assembly language can write (R100): a field's range is its width, so the one operand
value that fits its field and is still refused is UNPACK's reserved source (R96). -/

namespace Sys2Proof

/-- Whether a command has an assembly form (R100): UNPACK's source is 0..6, and every other operand may take every value
of its field (log 16). The block itself still decodes UNPACK with source 7, and rejects it when it runs (R96, R113). -/
def Instr.wellFormed : Instr → Bool
  | .nop => true
  | .init => true
  | .feed _ => true
  | .mulx _ _ => true
  | .tgt => true
  | .unpack src _ => src != 7
  | .check => true
  | .pfxb _ => true
  | .pfxd _ => true
  | .clrerr => true

end Sys2Proof
end

