-- ==== Sys2Proof/Decode.lean ====
section
/-! DEFINITION. Command words: decoding (R90 to R99), total on every 32-bit word, and encoding, written from the same
layout table (R91). -/

namespace Sys2Proof

/-- Why a word is no command. -/
inductive DecodeError where
  /-- `OPC` is 0xA to 0xF (R94). -/
  | illegalOpcode
  /-- A reserved bit of a defined opcode is 1 (R95). -/
  | reservedBits
  deriving DecidableEq, Repr

/-- `OPC`, bits 31:28 (R90). -/
def opcOf (v : Word) : BitVec 4 := v.extractLsb' 28 4

/-- Bits 27:0, the operand fields and the reserved bits (R90). -/
def operandBits (v : Word) : BitVec 28 := v.extractLsb' 0 28

/-- `FIELDMASK(OPC)`: the bits of 27:0 that belong to a field (R99). -/
def fieldMask (opc : BitVec 4) : BitVec 28 :=
  match opc.toNat with
  | 2 => 0x000001F
  | 3 => 0x0001F1F
  | 5 => 0x000071F
  | 7 => 0x000FFFF
  | 8 => 0x00000FF
  | _ => 0

/-- The command a word's opcode and fields name, its reserved bits not looked at; none for a reserved opcode (R91, R99). -/
def commandOf (v : Word) : Option Instr :=
  match (opcOf v).toNat with
  | 0 => some .nop
  | 1 => some .init
  | 2 => some (.feed (v.extractLsb' 0 5))
  | 3 => some (.mulx (v.extractLsb' 8 5) (v.extractLsb' 0 5))
  | 4 => some .tgt
  | 5 => some (.unpack (v.extractLsb' 8 3) (v.extractLsb' 0 5))
  | 6 => some .check
  | 7 => some (.pfxb (v.extractLsb' 0 16))
  | 8 => some (.pfxd (v.extractLsb' 0 8))
  | 9 => some .clrerr
  | _ => none

/-- Decoding a word written to CMD, the opcode tested before the reserved bits (R99, R174). -/
def decode (v : Word) : Except DecodeError Instr :=
  match commandOf v with
  | none => .error .illegalOpcode
  | some i =>
    if operandBits v &&& ~~~(fieldMask (opcOf v)) = 0 then .ok i else .error .reservedBits

/-- The decoder on an instruction's bits as spec/opcode_table.json numbers them. Every command is one 32-bit word (R98). -/
def decodeTableWord (nbits w : Nat) : Option Instr :=
  if w % 2 ^ nbits < 2 ^ 32 then (decode (BitVec.ofNat 32 (w % 2 ^ nbits))).toOption else none

/-- The word of a command (R91): `OPC` in bits 31:28, each field at its lowest bit, every other bit 0. -/
def encode : Instr → Word
  | .nop => 0x0#32 <<< 28
  | .init => 0x1#32 <<< 28
  | .feed e => (0x2#32 <<< 28) ||| e.setWidth 32
  | .mulx d a => (0x3#32 <<< 28) ||| (d.setWidth 32 <<< 8) ||| a.setWidth 32
  | .tgt => 0x4#32 <<< 28
  | .unpack src n => (0x5#32 <<< 28) ||| (src.setWidth 32 <<< 8) ||| n.setWidth 32
  | .check => 0x6#32 <<< 28
  | .pfxb n => (0x7#32 <<< 28) ||| n.setWidth 32
  | .pfxd b => (0x8#32 <<< 28) ||| b.setWidth 32
  | .clrerr => 0x9#32 <<< 28

end Sys2Proof
end

