-- ==== Sys2Proof/Config.lean ====
section
/-! DEFINITION. What an instance of the block fixes when it is built: its packed width, its bus address, and the
hard-wired constants it reports (R8 to R12, R39, R40). -/

namespace Sys2Proof

/-- The packed width `W` of an instance: 32, 64 or 128 bits, or the null instance of width 0 (R8). -/
inductive PackedWidth where
  | null
  | w32
  | w64
  | w128
  deriving DecidableEq, Repr

/-- `W` in bits (R8). -/
@[reducible] def PackedWidth.bits : PackedWidth → Nat
  | .null => 0
  | .w32 => 32
  | .w64 => 64
  | .w128 => 128

/-- `WIDTH = floor(W / 5)`, the number of five-bit slots (R9). -/
def PackedWidth.slots (w : PackedWidth) : Nat := w.bits / 5

/-- `POLY`, the field's reduction constant: x^5 + x^3 + 1 (R12, D22). -/
def Config.poly : BitVec 8 := 41

/-- `NGEN`, the number of generator shift registers (R25, R39). -/
def Config.genCount : BitVec 4 := 5

/-- The identity word "RB32" (R40, D1). -/
def Config.idValue : Word := 0x52423332

/-- DESIGN CHOICE (log 1): the instance that `State.reset` is the reset state of. The spec leaves `W` open (D2); every
other width has its own reset state, `State.resetOf`. -/
def Config.resetWidth : PackedWidth := .w32

/-- The platform's choice of `BASE`, counted in blocks of 256 bytes (R10, D3). No value is given to it: nothing can be
proved from one (log 6). -/
opaque Config.baseBlock : Nat

/-- `BASE`, the bus address of the register window: a multiple of 256 (R60). No rule reads it. -/
def Config.base : Nat := 256 * Config.baseBlock

/-- The bus address at which the host finds byte offset `off` of the window (R60, R61). -/
def Config.addressOf (off : Nat) : Nat := Config.base + off

end Sys2Proof
end

