-- ==== Sys2Proof/Machine/State.lean ====
section
/-! DEFINITION. The state of one instance of the block (R20), the events of its port, why a step can stop, and reset (R45). -/

namespace Sys2Proof.Machine

/-- Position of the prefix sequencer (R37). The two-bit value 3 never occurs (R32). -/
inductive Phase where
  | idle
  | hi
  | lo
  deriving DecidableEq, Repr

/-- The width of a bus access (R62): only a 32-bit one is legal. -/
inductive AccessSize where
  | b8
  | b16
  | b32
  | b64
  | burst
  deriving DecidableEq, Repr

/-- What the port delivers: a bus read or write at a byte offset of the register window (R60, R79), a pulse on the reset
input (R190), or an access by a second host, which this spec excludes (R183, I10). A write of another width than 32 bits
is illegal whatever it carries, so its data is kept as one word (log 19). -/
inductive PortEvent where
  | read (size : AccessSize) (off : Nat)
  | write (size : AccessSize) (off : Nat) (v : BitVec 32)
  | resetPulse
  | secondHost
  deriving DecidableEq, Repr

/-- What the port answered to the last event (log 3). -/
inductive Response where
  /-- Nothing answered since reset. -/
  | none
  /-- A legal write has completed; a rejected command counts as done (R73, R170). -/
  | done
  /-- A legal read returned this word (R79). -/
  | data (v : BitVec 32)
  /-- The bus error response of an illegal access (R64). -/
  | busError
  deriving DecidableEq, Repr

/-- The block never stops (R170): no step of it is a fault, and a bus error is a response (R64). Nobody raises one; safe
(log 13). -/
inductive Fault where
  deriving DecidableEq, Repr

/-- Why the model declines to go on. -/
inductive Refusal where
  /-- Raised by `exec` alone, for an instruction it has no meaning for; safe. -/
  | notModelled (mnemonic : String)
  /-- Raised by the port when a second host drives the instance: "a model must refuse it" (R183, I10); safe. -/
  | secondHost
  deriving DecidableEq, Repr

/-- One instance of the block. `width` is the instance parameter `W`, which nothing changes (R8, log 1). The fields from
`residue` to `seqIdx` are the architectural state, complete by R20. `pending` and `response` are the model's own view of
the host port (logs 2 and 3). -/
structure State where
  /-- `W` (R8). -/
  width : PackedWidth
  /-- RESIDUE (R22). -/
  residue : BitVec width.bits
  /-- TARGET (R24). -/
  target : BitVec width.bits
  /-- GEN_SH0 (R25). -/
  genSh0 : BitVec width.bits
  /-- GEN_SH1 (R25). -/
  genSh1 : BitVec width.bits
  /-- GEN_SH2 (R25). -/
  genSh2 : BitVec width.bits
  /-- GEN_SH3 (R25). -/
  genSh3 : BitVec width.bits
  /-- GEN_SH4 (R25). -/
  genSh4 : BitVec width.bits
  /-- The five bits behind CFG.CLEN; read through `State.clen`, since the null instance hard-wires them (R29, log 10). -/
  clenField : BitVec 5
  /-- CFG.SEP (R30). -/
  sep : BitVec 5
  /-- CODE_LENGTH (R31). -/
  codeLength : BitVec 32
  /-- STATUS.ERR (R33). -/
  err : Bool
  /-- STATUS.CFG_OK (R34). -/
  cfgOk : Bool
  /-- ERRCODE (R35). -/
  errcode : BitVec 4
  /-- RESULT (R36). -/
  result : BitVec 32
  /-- SEQ.PHASE (R37). -/
  phase : Phase
  /-- SEQ.LEN (R37). -/
  seqLen : BitVec 16
  /-- SEQ.IDX (R37). -/
  seqIdx : BitVec 16
  /-- The events the port has still to deliver, oldest first (R73, log 2). -/
  pending : List PortEvent
  /-- The port's answer to the last event (log 3). -/
  response : Response
  deriving DecidableEq, Repr

/-- The state of an instance of width `w` after reset (R45, R190): RESIDUE is ONE, everything else 0. On the null
instance ONE is the null value (R23, C5), the one value its zero bits can hold. -/
def State.resetOf (w : PackedWidth) : State where
  width := w
  residue := 1#w.bits
  target := 0#w.bits
  genSh0 := 0#w.bits
  genSh1 := 0#w.bits
  genSh2 := 0#w.bits
  genSh3 := 0#w.bits
  genSh4 := 0#w.bits
  clenField := 0
  sep := 0
  codeLength := 0
  err := false
  cfgOk := false
  errcode := 0
  result := 0
  phase := .idle
  seqLen := 0
  seqIdx := 0
  pending := []
  response := .none

/-- The state right after reset, on the instance `Config.resetWidth` names (log 1). -/
def State.reset : State := State.resetOf Config.resetWidth

end Sys2Proof.Machine
end

