-- ==== Sys2Proof/Machine/Flags.lean ====
section
/-! DEFINITION. The flags and the status words: STATUS.ERR, STATUS.CFG_OK, STATUS.SEQ_PHASE and ERRCODE (R32 to R35, R171). -/

namespace Sys2Proof.Machine

/-- The error codes a command can raise (R171). -/
inductive ErrorCode where
  | illegalOpcode
  | reservedBits
  | badSource
  | slotRange
  | seqState
  | degreeRange
  deriving DecidableEq, Repr

/-- ERRCODE's value for an error (R171). -/
def ErrorCode.code : ErrorCode → BitVec 4
  | .illegalOpcode => 1
  | .reservedBits => 2
  | .badSource => 3
  | .slotRange => 4
  | .seqState => 5
  | .degreeRange => 6

/-- SEQ_PHASE's two bits (R32, R37). -/
def Phase.bits : Phase → BitVec 2
  | .idle => 0
  | .hi => 1
  | .lo => 2

/-- STATUS as a word: `{PHASE, CFG_OK, ERR}`, bits 31:4 zero (R32, R79). -/
def State.statusWord (s : State) : Word :=
  (s.phase.bits ++ BitVec.ofBool s.cfgOk ++ BitVec.ofBool s.err).setWidth 32

/-- Recording an error: ERRCODE keeps the first code, ERR is sticky (R173). -/
def State.recordError (s : State) (c : ErrorCode) : State :=
  { s with errcode := if s.err then s.errcode else c.code, err := true }

/-- Clearing the error record (R166). -/
def State.clearError (s : State) : State :=
  { s with err := false, errcode := 0 }

/-- CFG_OK and RESULT as CHECK leaves them for a diagnostic word: CFG_OK is 1 exactly for the word 0 (R123, R124). -/
def State.setVerdict (s : State) (diagnostic : Word) : State :=
  { s with cfgOk := diagnostic == 0, result := diagnostic }

/-- The failure word of relation `i` at slot `j` (R124). -/
def doublingFailure (i j : Nat) : Word :=
  0x40000000 ||| (BitVec.ofNat 32 i <<< 8) ||| BitVec.ofNat 32 j

/-- The failure word of the length condition (R124). -/
def lengthFailure : Word := 0x80000000

end Sys2Proof.Machine
end

