-- ==== Sys2Proof/Machine/Operands.lean ====
section
/-! DEFINITION. Operand forms: the packed registers by name and by number, the configuration fields a command reads, and
the range checks on a degree and on a slot index. -/

namespace Sys2Proof.Machine

/-- The packed registers (R21): the bus window and UNPACK's source field number them alike (R61, R96). -/
inductive PackedReg where
  | residue
  | target
  | genSh (i : Fin 5)
  deriving DecidableEq, Repr

/-- The packed register with number `n`: 0 RESIDUE, 1 TARGET, 2 + i GEN_SH`i` (R96; in the same order in the window, R61). -/
def PackedReg.ofNumber : Nat → Option PackedReg
  | 0 => some .residue
  | 1 => some .target
  | 2 => some (.genSh 0)
  | 3 => some (.genSh 1)
  | 4 => some (.genSh 2)
  | 5 => some (.genSh 3)
  | 6 => some (.genSh 4)
  | _ => none

/-- The inverse of `ofNumber` on the seven registers (R96). -/
def PackedReg.number : PackedReg → Nat
  | .residue => 0
  | .target => 1
  | .genSh i => 2 + i.val

/-- GEN_SH`i` (R25). -/
def State.gen (s : State) : Fin 5 → BitVec s.width.bits
  | 0 => s.genSh0
  | 1 => s.genSh1
  | 2 => s.genSh2
  | 3 => s.genSh3
  | 4 => s.genSh4

/-- GEN_SH`i` with a new value (R25). -/
def State.setGen (s : State) (i : Fin 5) (v : BitVec s.width.bits) : State :=
  { s with
    genSh0 := if i = 0 then v else s.genSh0
    genSh1 := if i = 1 then v else s.genSh1
    genSh2 := if i = 2 then v else s.genSh2
    genSh3 := if i = 3 then v else s.genSh3
    genSh4 := if i = 4 then v else s.genSh4 }

/-- The value of a packed register (R21). -/
def State.packed (s : State) : PackedReg → BitVec s.width.bits
  | .residue => s.residue
  | .target => s.target
  | .genSh i => s.gen i

/-- CFG.CLEN as the block reads it: hard-wired to 0 on the null instance (R28, R29, D28). -/
def State.clen (s : State) : BitVec 5 :=
  if s.width.bits = 0 then 0 else s.clenField

/-- Whether `d` passes the DEGREE_RANGE check: 1..WIDTH, and anything on the null instance (R172). -/
def State.degreeOk (s : State) (d : BitVec 5) : Bool :=
  s.width.bits = 0 || (d != 0 && d.toNat ≤ s.width.slots)

/-- Whether `n` passes the SLOT_RANGE check: below WIDTH, and anything on the null instance (R172). -/
def State.slotOk (s : State) (n : BitVec 5) : Bool :=
  s.width.bits = 0 || n.toNat < s.width.slots

/-- The field element PFXD feeds in the high pass: `b[7:5]` (R150, R153). -/
def highElem (b : Byte) : FieldElem := (b.extractLsb' 5 3).setWidth 5

/-- The field element PFXD feeds in the low pass: `b[4:0]` (R150, R153). -/
def lowElem (b : Byte) : FieldElem := b.extractLsb' 0 5

end Sys2Proof.Machine
end

