-- ==== Sys2Proof/Machine/Ops.lean ====
section
/-! DEFINITION. The shared operations: rejecting a command (R173), the packed field vector unit (R110, R111), field
doubling (R120), the division step (R130) and the word view of a packed register (R67, R68). -/

namespace Sys2Proof.Machine

/-- `raise Error(code)`: the command ends, and nothing but ERR and ERRCODE is written (R170, R173). This is the block's
only exception: no state is saved, no mode changes, nothing is vectored, and CLRERR is the whole return (R179). -/
def raiseError (c : ErrorCode) (s : State) : Host.Outcome State Fault Refusal :=
  .next (s.recordError c)

/-- `unpack(v, n)`: bits `[5n+4 : 5n]`, and 0 at width 0 (R110). Bits at or above the width read 0 (log 15). -/
def unpack {w : Nat} (v : BitVec w) (n : Nat) : FieldElem := v.extractLsb' (5 * n) 5

/-- `mulx(v, d, a)`: the vector with slot `d - 1` zeroed, shifted up by one slot and `a` put in slot 0, and the
coefficient that was in slot `d - 1`; a no-op returning 0 at width 0 (R111). -/
def mulx {w : Nat} (v : BitVec w) (d : Nat) (a : FieldElem) : BitVec w × FieldElem :=
  if w = 0 then (v, 0)
  else
    let cleared := v &&& ~~~(BitVec.ofNat w (0x1F <<< (5 * (d - 1))))
    ((cleared <<< 5) ||| a.setWidth w, unpack v (d - 1))

/-- `double(c)`: multiplication of a field element by α, reduced by POLY = 41 (R120). -/
def double (c : FieldElem) : FieldElem :=
  ((c.setWidth 8 <<< 1) ^^^ (if c.getLsbD 4 then Config.poly else 0)).setWidth 5

/-- The five conditional XORs of the division step: GEN_SH`i` is XORed in when bit `i` of `dropped` is 1, all W bits
(R130, C2). -/
def addGenerators {w : Nat} (gen : Fin 5 → BitVec w) (dropped : FieldElem) (t : BitVec w) : BitVec w :=
  ([0, 1, 2, 3, 4] : List (Fin 5)).foldl (fun t (i : Fin 5) => if dropped.getLsbD i.val then t ^^^ gen i else t) t

/-- One division step on a residue (R130). -/
def divStep {w : Nat} (gen : Fin 5 → BitVec w) (clen : Nat) (r : BitVec w) (e : FieldElem) : BitVec w :=
  addGenerators gen (mulx r clen e).2 (mulx r clen e).1

/-- The division steps with slots `k - 1` down to 0 of `v` (R133). -/
def divSlots {w : Nat} (gen : Fin 5 → BitVec w) (clen : Nat) (v : BitVec w) : Nat → BitVec w → BitVec w
  | 0, r => r
  | k + 1, r => divSlots gen clen v k (divStep gen clen r (unpack v k))

/-- `feed(e)` on the block: RESIDUE takes one division step at degree CLEN (R130). -/
def State.feed (s : State) (e : FieldElem) : State :=
  { s with residue := divStep s.gen s.clen.toNat s.residue e }

/-- The sequencer at rest: IDLE, with LEN and IDX 0 (R37). -/
def State.seqIdle (s : State) : State :=
  { s with phase := .idle, seqLen := 0, seqIdx := 0 }

/-- Word `k` of a packed register; a word at or above W does not exist and reads 0 (R67, R68). -/
def getWord {w : Nat} (p : BitVec w) (k : Nat) : Word :=
  if 32 * k < w then p.extractLsb' (32 * k) 32 else 0

/-- A packed register with word `k` replaced; a write to a word at or above W is ignored (R67, R68). -/
def setWord {w : Nat} (p : BitVec w) (k : Nat) (v : Word) : BitVec w :=
  if 32 * k < w then
    (p &&& ~~~(BitVec.ofNat w (0xFFFFFFFF <<< (32 * k)))) ||| (v.setWidth w <<< (32 * k))
  else p

end Sys2Proof.Machine
end

