-- ==== Sys2Proof/Machine/Bus.lean ====
section
/-! DEFINITION. The register window (R60 to R69, R79): which accesses are legal, what each register reads as, and what a
write to a register other than CMD stores. -/

namespace Sys2Proof.Machine

/-- The registers of the window (R61). -/
inductive WindowReg where
  | id
  | param
  | cfg
  | codeLength
  | status
  | errcode
  | cmd
  | result
  | seqCnt
  | seqRemain
  | packedWord (p : PackedReg) (k : Nat)
  deriving DecidableEq, Repr

/-- The register at a byte offset; none where nothing is mapped and where the offset is misaligned (R61, R63, R65). -/
def WindowReg.at (off : Nat) : Option WindowReg :=
  match off with
  | 0x000 => some .id
  | 0x004 => some .param
  | 0x008 => some .cfg
  | 0x00C => some .codeLength
  | 0x010 => some .status
  | 0x014 => some .errcode
  | 0x018 => some .cmd
  | 0x01C => some .result
  | 0x020 => some .seqCnt
  | 0x024 => some .seqRemain
  | _ =>
    if off % 4 = 0 ∧ 0x040 ≤ off then
      (PackedReg.ofNumber ((off - 0x040) / 16)).map fun p => .packedWord p (off / 4 % 4)
    else none

/-- The register a 32-bit access reaches; none for an access of another width (R62, R64). -/
def WindowReg.reached (size : AccessSize) (off : Nat) : Option WindowReg :=
  if size = .b32 then WindowReg.at off else none

/-- SEQ_REMAIN: the elements the prefix sequence has still to yield (R38). In a state no run reaches, IDX above LEN, the
difference wraps (log 9). -/
def State.seqRemain (s : State) : Word :=
  match s.phase with
  | .hi => (s.seqLen.setWidth 32 - s.seqIdx.setWidth 32) + 1 + s.seqLen.setWidth 32
  | .lo => s.seqLen.setWidth 32 - s.seqIdx.setWidth 32
  | .idle => 0

/-- PARAM: reserved bits, NGEN, POLY, WIDTH, W (R39). -/
def State.paramWord (s : State) : Word :=
  0#4 ++ Config.genCount ++ Config.poly ++ BitVec.ofNat 8 s.width.slots ++ BitVec.ofNat 8 s.width.bits

/-- `BusRead`: the word a register reads as (R79). Reading changes no state (R70). -/
def State.readReg (s : State) : WindowReg → Word
  | .id => Config.idValue
  | .param => s.paramWord
  | .cfg => (s.sep ++ 0#3 ++ s.clen).setWidth 32
  | .codeLength => s.codeLength
  | .status => s.statusWord
  | .errcode => s.errcode.setWidth 32
  | .cmd => 0
  | .result => s.result
  | .seqCnt => s.seqIdx ++ s.seqLen
  | .seqRemain => s.seqRemain
  | .packedWord p k => getWord (s.packed p) k

/-- `BusWrite` to a register other than CMD (R79). Read-only registers and reserved bits ignore it (R66); CLEN is
hard-wired on the null instance (R29); every write to CFG or to a GEN_SH word clears CFG_OK, one to a word that does not
exist too (R34, R68). -/
def State.writeReg (s : State) (r : WindowReg) (v : Word) : State :=
  match r with
  | .cfg =>
    { s with
      clenField := if s.width.bits = 0 then s.clenField else v.extractLsb' 0 5
      sep := v.extractLsb' 8 5
      cfgOk := false }
  | .codeLength => { s with codeLength := v }
  | .packedWord .target k => { s with target := setWord s.target k v }
  | .packedWord (.genSh i) k => { s.setGen i (setWord (s.gen i) k v) with cfgOk := false }
  | .packedWord .residue _ => s
  | .id => s
  | .param => s
  | .status => s
  | .errcode => s
  | .cmd => s
  | .result => s
  | .seqCnt => s
  | .seqRemain => s

/-- Byte lane `b` of a bus word: bits `[8b+7 : 8b]` (R69). -/
def byteLane (v : Word) (b : Fin 4) : Byte := v.extractLsb' (8 * b.val) 8

/-- The bus word whose byte lanes 0 to 3 are given (R69). -/
def wordOfLanes (l0 l1 l2 l3 : Byte) : Word := l3 ++ l2 ++ l1 ++ l0

end Sys2Proof.Machine
end

