-- ==== Sys2Proof/Machine/Configuration.lean ====
section
/-! DEFINITION. The configuration checker: CHECK (R123). -/

namespace Sys2Proof.Machine

/-- The pairs (relation, slot) in the order CHECK tries them: relation 1..4 ascending, then slot ascending (R123, C1). A
relation is named by the lower of the two registers it compares: `(i, j)` compares GEN_SH`i+1` with GEN_SH`i`. -/
def doublingPairs (slots : Nat) : List (Fin 4 × Nat) :=
  ([0, 1, 2, 3] : List (Fin 4)).flatMap fun i => (List.range slots).map fun j => (i, j)

/-- Whether slot `j` of GEN_SH`i+1` is the double of slot `j` of GEN_SH`i` (R121). -/
def doublesAt {w : Nat} (gen : Fin 5 → BitVec w) (i : Fin 4) (j : Nat) : Bool :=
  unpack (gen i.succ) j == double (unpack (gen i.castSucc) j)

/-- The word CHECK reports on a configuration (R123, R124): the length condition first, then the first failing relation. -/
def checkWord {w : Nat} (slots clen : Nat) (gen : Fin 5 → BitVec w) : Word :=
  if slots < clen then lengthFailure
  else
    match (doublingPairs slots).find? (fun p => !doublesAt gen p.1 p.2) with
    | none => 0
    | some (i, j) => doublingFailure (i.val + 1) j

/-- The word CHECK reports in a state (R123). -/
def State.diagnostic (s : State) : Word := checkWord s.width.slots s.clen.toNat s.gen

/-- CHECK (R123): a failed check is a verdict, not an error. -/
def execCheck (s : State) : Host.Outcome State Fault Refusal :=
  .next (s.setVerdict s.diagnostic)

end Sys2Proof.Machine
end

