-- ==== Sys2Proof/Machine/Control.lean ====
section
/-! DEFINITION. The interface control commands: NOP (R165) and CLRERR (R166). -/

namespace Sys2Proof.Machine

/-- NOP (R165): no state change. -/
def execNop (s : State) : Host.Outcome State Fault Refusal := .next s

/-- CLRERR (R166). -/
def execClrerr (s : State) : Host.Outcome State Fault Refusal := .next s.clearError

end Sys2Proof.Machine
end

