-- ==== Sys2Proof/Machine/Engine.lean ====
section
/-! DEFINITION. The residue accumulator: INIT (R131), FEED (R132) and TGT (R133). -/

namespace Sys2Proof.Machine

/-- INIT (R131): RESIDUE becomes ONE, and a prefix sequence in progress is abandoned. -/
def execInit (s : State) : Host.Outcome State Fault Refusal :=
  .next { s.seqIdle with residue := 1#s.width.bits }

/-- FEED e (R132). -/
def execFeed (e : FieldElem) (s : State) : Host.Outcome State Fault Refusal :=
  if s.degreeOk s.clen then .next (s.feed e) else raiseError .degreeRange s

/-- TGT (R133): CLEN division steps with TARGET's slots CLEN-1 down to 0, in one indivisible command. -/
def execTgt (s : State) : Host.Outcome State Fault Refusal :=
  if s.degreeOk s.clen then
    .next { s with residue := divSlots s.gen s.clen.toNat s.target s.clen.toNat s.residue }
  else raiseError .degreeRange s

end Sys2Proof.Machine
end

