-- ==== Sys2Proof/Machine/PackedVector.lean ====
section
/-! DEFINITION. The commands of the packed field vector unit: UNPACK (R113) and MULX (R114). -/

namespace Sys2Proof.Machine

/-- UNPACK src, n (R113): the source is checked before the slot (R174). -/
def execUnpack (src : BitVec 3) (n : BitVec 5) (s : State) : Host.Outcome State Fault Refusal :=
  match PackedReg.ofNumber src.toNat with
  | none => raiseError .badSource s
  | some p =>
    if s.slotOk n then .next { s with result := (unpack (s.packed p) n.toNat).setWidth 32 }
    else raiseError .slotRange s

/-- MULX d, a (R114). -/
def execMulx (d a : BitVec 5) (s : State) : Host.Outcome State Fault Refusal :=
  if s.degreeOk d then
    .next { s with
      residue := (mulx s.residue d.toNat a).1
      result := (mulx s.residue d.toNat a).2.setWidth 32 }
  else raiseError .degreeRange s

end Sys2Proof.Machine
end

