-- ==== Sys2Proof/Machine/PrefixSequencer.lean ====
section
/-! DEFINITION. The prefix sequencer: PFXB (R152) and PFXD (R153). -/

namespace Sys2Proof.Machine

/-- PFXB n (R152). A prefix of no bytes is the separator alone, fed at once; the CLEN check of a longer one waits for its
first byte. -/
def execPfxb (n : BitVec 16) (s : State) : Host.Outcome State Fault Refusal :=
  if n = 0 then
    if s.degreeOk s.clen then .next (s.feed s.sep).seqIdle else raiseError .degreeRange s
  else .next { s with phase := .hi, seqLen := n, seqIdx := 0 }

/-- Whether the byte now delivered is the last of its pass: `IDX + 1 = LEN` (R153). -/
def State.lastOfPass (s : State) : Bool := s.seqIdx + 1 == s.seqLen

/-- A byte of the high pass (R153): its high element is fed; after the last byte the separator is fed too, and the low pass
begins. -/
def State.prefixHigh (s : State) (b : Byte) : State :=
  { s with
    residue := if s.lastOfPass then ((s.feed (highElem b)).feed s.sep).residue else (s.feed (highElem b)).residue
    phase := if s.lastOfPass then .lo else .hi
    seqIdx := if s.lastOfPass then 0 else s.seqIdx + 1 }

/-- A byte of the low pass (R153): its low element is fed, and after the last byte the sequence is over. -/
def State.prefixLow (s : State) (b : Byte) : State :=
  { s with
    residue := (s.feed (lowElem b)).residue
    phase := if s.lastOfPass then .idle else .lo
    seqLen := if s.lastOfPass then 0 else s.seqLen
    seqIdx := if s.lastOfPass then 0 else s.seqIdx + 1 }

/-- PFXD b (R153): the sequencer's state is checked before CLEN (R174). -/
def execPfxd (b : Byte) (s : State) : Host.Outcome State Fault Refusal :=
  match s.phase with
  | .idle => raiseError .seqState s
  | .hi => if s.degreeOk s.clen then .next (s.prefixHigh b) else raiseError .degreeRange s
  | .lo => if s.degreeOk s.clen then .next (s.prefixLow b) else raiseError .degreeRange s

end Sys2Proof.Machine
end

