-- ==== Sys2Proof/Machine/Dispatch.lean ====
section
/-! DEFINITION. One arm per command (R93, R99). -/

namespace Sys2Proof.Machine

/-- The effect of a command: its checks, then its pseudocode as one indivisible step (R16). -/
def exec (i : Instr) (s : State) : Host.Outcome State Fault Refusal :=
  match i with
  | .nop => Sys2Proof.Machine.execNop s
  | .init => Sys2Proof.Machine.execInit s
  | .feed e => Sys2Proof.Machine.execFeed e s
  | .mulx d a => Sys2Proof.Machine.execMulx d a s
  | .tgt => Sys2Proof.Machine.execTgt s
  | .unpack src n => Sys2Proof.Machine.execUnpack src n s
  | .check => Sys2Proof.Machine.execCheck s
  | .pfxb n => Sys2Proof.Machine.execPfxb n s
  | .pfxd b => Sys2Proof.Machine.execPfxd b s
  | .clrerr => Sys2Proof.Machine.execClrerr s

end Sys2Proof.Machine
end

