-- ==== Sys2Proof/Machine/Port.lean ====
section
/-! DEFINITION. What one event of the host port does: a command word written to CMD, a read, a write, reset (R64, R73,
R79, R99, R190). -/

namespace Sys2Proof.Machine

/-- The byte offset of CMD (R61). -/
def cmdOffset : Nat := 0x018

/-- The error a word raises that is no command (R94, R95). -/
def decodeErrorCode : DecodeError → ErrorCode
  | .illegalOpcode => .illegalOpcode
  | .reservedBits => .reservedBits

/-- `execute command v`: every word executes one command or raises one error (R99). -/
def runCommand (v : Word) (s : State) : Host.Outcome State Fault Refusal :=
  match decode v with
  | .ok i => exec i s
  | .error e => raiseError (decodeErrorCode e) s

/-- A bus read: the register's word, or BusError, in the port's response; nothing else changes (R64, R70, R79). -/
def busRead (size : AccessSize) (off : Nat) (s : State) : Host.Outcome State Fault Refusal :=
  match WindowReg.reached size off with
  | none => .next { s with response := .busError }
  | some r => .next { s with response := .data (s.readReg r) }

/-- A bus write: a command, a register's new value, or BusError (R64, R79). A rejected command counts as done (R170). -/
def busWrite (size : AccessSize) (off : Nat) (v : Word) (s : State) : Host.Outcome State Fault Refusal :=
  match WindowReg.reached size off with
  | none => .next { s with response := .busError }
  | some .cmd => runCommand v { s with response := .done }
  | some r => .next { s.writeReg r v with response := .done }

/-- Reset: every state element to its value in R45; the port's later events stay queued (R190, log 7). -/
def resetBlock (s : State) : Host.Outcome State Fault Refusal :=
  .next { State.resetOf s.width with pending := s.pending }

/-- One event of the port (R17, R73, R183). -/
def deliver (e : PortEvent) (s : State) : Host.Outcome State Fault Refusal :=
  match e with
  | .read size off => busRead size off s
  | .write size off v => busWrite size off v s
  | .resetPulse => resetBlock s
  | .secondHost => .refused .secondHost

/-- The port event that gives the block an instruction's bits as spec/opcode_table.json numbers them: a 32-bit write to
CMD (R90, R98). -/
def commandEvent (nbits w : Nat) : PortEvent :=
  .write .b32 cmdOffset (BitVec.ofNat 32 (w % 2 ^ nbits))

/-- The commands of a list, one after the other, as the host writes them (R41, R73). -/
def execAll : List Instr → State → Host.Outcome State Fault Refusal
  | [], s => .next s
  | i :: is, s =>
    match exec i s with
    | .next t => execAll is t
    | .fault r => .fault r
    | .refused r => .refused r

end Sys2Proof.Machine
end

