-- ==== Sys2Proof/Machine/Step.lean ====
section
/-! DEFINITION. One step: the oldest event of the host port is performed whole (R17, R73). -/

namespace Sys2Proof.Machine

/-- One step of the block. With no event to deliver the block stays as it is: it has no autonomous activity (R17, log 2). -/
def step (s : State) : Host.Outcome State Fault Refusal :=
  match s.pending with
  | [] => .next s
  | e :: rest => deliver e { s with pending := rest }

/-- `s` with an instruction's bits as the port's next event (log 4). -/
def State.withFetchWord (s : State) (nbits w : Nat) : State :=
  { s with pending := commandEvent nbits w :: s.pending }

end Sys2Proof.Machine
end

