-- ==== Sys2Proof/Machine/Assembler.lean ====
section
/-! DEFINITION. The command assembly language: its lines, what each stands for on the bus, and how a line is read from
text (R100, R101). -/

namespace Sys2Proof.Machine

/-- The command mnemonics (R100). -/
inductive Mnemonic where
  | nop
  | init
  | feed
  | mulx
  | tgt
  | unpack
  | check
  | pfxb
  | pfxd
  | clrerr
  deriving DecidableEq, Repr

/-- A line of the assembly language, its numbers not yet checked against their fields (R100, R101). -/
inductive AsmLine where
  | command (m : Mnemonic) (operands : List Nat)
  | wr (off v : Nat)
  /-- A read, with the value it is stated to return if the line says one. -/
  | rd (off : Nat) (expected : Option Nat)
  | cmd (v : Nat)
  | setcfg (clen sep : Nat)
  | ldpk (p : PackedReg) (v : Nat)
  | rdpk (p : PackedReg)
  | feeds (es : List Nat)
  | prefixOf (bytes : List Nat)
  deriving DecidableEq, Repr

/-- A number as an operand field of `n` bits: refused, never truncated, outside the field's range (R100). -/
def field (n v : Nat) : Option (BitVec n) := if v < 2 ^ n then some (BitVec.ofNat n v) else none

/-- The command of a mnemonic and its operands (R100). -/
def assembleCommand : Mnemonic → List Nat → Option Instr
  | .nop, [] => some .nop
  | .init, [] => some .init
  | .feed, [e] => (field 5 e).map .feed
  | .mulx, [d, a] => do pure (.mulx (← field 5 d) (← field 5 a))
  | .tgt, [] => some .tgt
  | .unpack, [src, n] => do
    let i := Instr.unpack (← field 3 src) (← field 5 n)
    if i.wellFormed then pure i else none
  | .check, [] => some .check
  | .pfxb, [n] => (field 16 n).map .pfxb
  | .pfxd, [b] => (field 8 b).map .pfxd
  | .clrerr, [] => some .clrerr
  | _, _ => none

/-- The bus write a command line stands for: `BusWrite(0x018, word)` (R100). -/
def commandWrite (i : Instr) : PortEvent := .write .b32 cmdOffset (encode i)

/-- `base(P)`: the first byte offset of a packed register (R61). -/
def PackedReg.base (p : PackedReg) : Nat := 0x040 + 16 * p.number

/-- The writable packed registers, which LDPK may name (R101). -/
def PackedReg.writable : PackedReg → Bool
  | .residue => false
  | .target => true
  | .genSh _ => true

/-- The bus accesses a line stands for; none if an operand is outside its field's range (R100, R101). -/
def AsmLine.events : AsmLine → Option (List PortEvent)
  | .command m operands => do pure [commandWrite (← assembleCommand m operands)]
  | .wr off v => do pure [.write .b32 off (← field 32 v)]
  | .rd off none => some [.read .b32 off]
  | .rd off (some v) => do
    let _ ← field 32 v
    pure [.read .b32 off]
  | .cmd v => do pure [.write .b32 cmdOffset (← field 32 v)]
  | .setcfg clen sep => do
    let c ← field 5 clen
    let p ← field 5 sep
    pure [.write .b32 0x008 ((p.setWidth 32 <<< 8) ||| c.setWidth 32)]
  | .ldpk p v => do
    let x ← field 128 v
    if p.writable then
      pure ([0, 1, 2, 3].map fun k => .write .b32 (p.base + 4 * k) (x.extractLsb' (32 * k) 32))
    else none
  | .rdpk p => some ([0, 1, 2, 3].map fun k => .read .b32 (p.base + 4 * k))
  | .feeds [] => none
  | .feeds (e :: es) => (e :: es).mapM fun x => (field 5 x).map fun e => commandWrite (.feed e)
  | .prefixOf bytes => do
    let n ← field 16 bytes.length
    let pass ← bytes.mapM fun x => (field 8 x).map fun b => commandWrite (.pfxd b)
    pure (commandWrite (.pfxb n) :: (pass ++ pass))

/-! Reading a line from text. What R100 leaves open about spaces, letter case of names and quoting is log 17. -/

/-- A letter in upper case: mnemonics are case-insensitive (R100). -/
def upperCase (c : Char) : Char :=
  if 97 ≤ c.toNat ∧ c.toNat ≤ 122 then Char.ofNat (c.toNat - 32) else c

/-- A space or a tab. -/
def isBlank (c : Char) : Bool := c = ' ' || c.toNat = 9

/-- A text without the blanks at its two ends. -/
def trimBlanks (cs : List Char) : List Char :=
  ((cs.dropWhile isBlank).reverse.dropWhile isBlank).reverse

/-- A line without its comment, which runs from a `;` outside quotes to the end (R100). -/
def stripComment : Bool → List Char → List Char
  | _, [] => []
  | false, '\'' :: c :: '\'' :: rest => '\'' :: c :: '\'' :: stripComment false rest
  | quoted, c :: rest =>
    if c = ';' && !quoted then []
    else c :: stripComment (if c.toNat = 34 then !quoted else quoted) rest

/-- The operands of a text, split at the commas outside character literals (R100). -/
def splitOperands : List Char → List (List Char)
  | [] => [[]]
  | '\'' :: c :: '\'' :: rest =>
    match splitOperands rest with
    | [] => [['\'', c, '\'']]
    | o :: os => ('\'' :: c :: '\'' :: o) :: os
  | c :: rest =>
    match splitOperands rest with
    | [] => [[c]]
    | o :: os => if c = ',' then [] :: o :: os else (c :: o) :: os

/-- The operands of a command, trimmed; no operands for an empty text. -/
def operandsOf (cs : List Char) : List (List Char) :=
  if trimBlanks cs = [] then [] else (splitOperands cs).map trimBlanks

/-- The text before the first `->` and the text after it, if there is one (R100). -/
def splitArrow : List Char → List Char × Option (List Char)
  | [] => ([], none)
  | '-' :: '>' :: rest => ([], some rest)
  | c :: rest => (c :: (splitArrow rest).1, (splitArrow rest).2)

/-- The value of a digit in base 10 or 16. -/
def digitValue (base : Nat) (c : Char) : Option Nat :=
  let n := (upperCase c).toNat
  let v := if 48 ≤ n ∧ n ≤ 57 then n - 48 else if 65 ≤ n ∧ n ≤ 70 then n - 55 else 16
  if v < base then some v else none

/-- The value of a row of digits; none for no digits. -/
def digitsValue (base : Nat) (ds : List Char) : Option Nat :=
  if ds = [] then none
  else ds.foldl (fun acc d => do pure (base * (← acc) + (← digitValue base d))) (some 0)

/-- A number, decimal or hexadecimal with `0x` (R100). -/
def numberOf : List Char → Option Nat
  | '0' :: 'x' :: ds => digitsValue 16 ds
  | ds => digitsValue 10 ds

/-- A prefix byte: a number, or a character literal standing for the character's code (R100). -/
def byteOf : List Char → Option Nat
  | ['\'', c, '\''] => some c.toNat
  | cs => numberOf cs

/-- The name of a packed register (R100). -/
def packedNamed (cs : List Char) : Option PackedReg :=
  match cs.map upperCase with
  | ['R', 'E', 'S', 'I', 'D', 'U', 'E'] => some .residue
  | ['T', 'A', 'R', 'G', 'E', 'T'] => some .target
  | ['G', 'E', 'N', '0'] => some (.genSh 0)
  | ['G', 'E', 'N', '1'] => some (.genSh 1)
  | ['G', 'E', 'N', '2'] => some (.genSh 2)
  | ['G', 'E', 'N', '3'] => some (.genSh 3)
  | ['G', 'E', 'N', '4'] => some (.genSh 4)
  | _ => none

/-- UNPACK's source operand: a register's name or its number (R100). -/
def sourceOf (cs : List Char) : Option Nat :=
  match packedNamed cs with
  | some p => some p.number
  | none => numberOf cs

/-- The bytes between the two double quotes of a PREFIX line, exactly as written (R101). -/
def quotedBytes (cs : List Char) : Option (List Nat) :=
  match cs with
  | q :: rest =>
    if q.toNat = 34 ∧ (rest.getLast?.map Char.toNat) = some 34 then
      some (rest.dropLast.map Char.toNat)
    else none
  | [] => none

/-- A command line from its mnemonic and the texts of its operands, each read as a number. -/
def numbersLine (m : Mnemonic) (ops : List (List Char)) : Option AsmLine := do
  pure (.command m (← ops.mapM numberOf))

/-- A line from its first word, in upper case, and the rest of its text (R100, R101). -/
def lineOf (name : List Char) (text : List Char) : Option AsmLine :=
  match name with
  | ['N', 'O', 'P'] => numbersLine .nop (operandsOf text)
  | ['I', 'N', 'I', 'T'] => numbersLine .init (operandsOf text)
  | ['F', 'E', 'E', 'D'] => numbersLine .feed (operandsOf text)
  | ['M', 'U', 'L', 'X'] => numbersLine .mulx (operandsOf text)
  | ['T', 'G', 'T'] => numbersLine .tgt (operandsOf text)
  | ['U', 'N', 'P', 'A', 'C', 'K'] =>
    match operandsOf text with
    | [src, n] => do pure (.command .unpack [← sourceOf src, ← numberOf n])
    | _ => none
  | ['C', 'H', 'E', 'C', 'K'] => numbersLine .check (operandsOf text)
  | ['P', 'F', 'X', 'B'] => numbersLine .pfxb (operandsOf text)
  | ['P', 'F', 'X', 'D'] =>
    match operandsOf text with
    | [b] => do pure (.command .pfxd [← byteOf b])
    | _ => none
  | ['C', 'L', 'R', 'E', 'R', 'R'] => numbersLine .clrerr (operandsOf text)
  | ['W', 'R'] =>
    match operandsOf text with
    | [off, v] => do pure (.wr (← numberOf off) (← numberOf v))
    | _ => none
  | ['R', 'D'] =>
    match splitArrow text with
    | (off, none) => do pure (.rd (← numberOf (trimBlanks off)) none)
    | (off, some v) => do pure (.rd (← numberOf (trimBlanks off)) (some (← numberOf (trimBlanks v))))
  | ['C', 'M', 'D'] =>
    match operandsOf text with
    | [v] => do pure (.cmd (← numberOf v))
    | _ => none
  | ['S', 'E', 'T', 'C', 'F', 'G'] =>
    match operandsOf text with
    | [clen, sep] => do pure (.setcfg (← numberOf clen) (← numberOf sep))
    | _ => none
  | ['L', 'D', 'P', 'K'] =>
    match operandsOf text with
    | [p, v] => do pure (.ldpk (← packedNamed p) (← numberOf v))
    | _ => none
  | ['R', 'D', 'P', 'K'] =>
    match operandsOf text with
    | [p] => do pure (.rdpk (← packedNamed p))
    | _ => none
  | ['F', 'E', 'E', 'D', 'S'] => do pure (.feeds (← (operandsOf text).mapM numberOf))
  | ['P', 'R', 'E', 'F', 'I', 'X'] => do pure (.prefixOf (← quotedBytes (trimBlanks text)))
  | _ => none

/-- The bus accesses of a line of text: none of them for a line that is empty or only a comment; `none` for a line the
assembler refuses (R100). -/
def assembleLine (text : List Char) : Option (List PortEvent) :=
  match trimBlanks (stripComment false text) with
  | [] => some []
  | c :: cs =>
    let line := c :: cs
    let name := line.takeWhile fun c => !isBlank c
    (lineOf (name.map upperCase) (line.drop name.length)).bind AsmLine.events

/-- The bus accesses of a program text, one command per line (R100). -/
def assemble (lines : List (List Char)) : Option (List PortEvent) := do
  pure (← lines.mapM assembleLine).flatten

end Sys2Proof.Machine
end

