-- ==== Sys2Proof/Safety.lean ====
section
/-! DEFINITION. The terms the claims use: what a rejected command leaves, the configuration conditions of R44, R121 and
R122, the field element sequences of R136 and R150, the invariant every step keeps, the boot sequence of R192, and the
polynomials of R15, R126 and R139. -/

namespace Sys2Proof.Machine

/-! ## Outcomes and the error record -/

/-- The state a rejected command leaves: "the state after a rejected command equals the state before it, except ERR and
ERRCODE" (R170), with the first code kept (R173). Written out from the rule, and not through `State.recordError`. -/
def State.rejected (s : State) (code : BitVec 4) : State :=
  { s with err := true, errcode := if s.err then s.errcode else code }

/-- An outcome with its next state changed by `f`. -/
def mapNext (f : State → State) : Host.Outcome State Fault Refusal → Host.Outcome State Fault Refusal
  | .next s => .next (f s)
  | .fault r => .fault r
  | .refused r => .refused r

/-- The error of R171 that a command raises in a state by R172, as its code; 0 for none. The checks stand in the order
of R174. -/
def State.expectedError (s : State) : Instr → BitVec 4
  | .nop => 0
  | .init => 0
  | .check => 0
  | .clrerr => 0
  | .feed _ => if s.width.bits > 0 ∧ (s.clen = 0 ∨ s.clen.toNat > s.width.slots) then 6 else 0
  | .tgt => if s.width.bits > 0 ∧ (s.clen = 0 ∨ s.clen.toNat > s.width.slots) then 6 else 0
  | .mulx d _ => if s.width.bits > 0 ∧ (d = 0 ∨ d.toNat > s.width.slots) then 6 else 0
  | .unpack src n =>
    if src = 7 then 3
    else if s.width.bits > 0 ∧ n.toNat ≥ s.width.slots then 4
    else 0
  | .pfxb n =>
    if n = 0 ∧ s.width.bits > 0 ∧ (s.clen = 0 ∨ s.clen.toNat > s.width.slots) then 6 else 0
  | .pfxd _ =>
    if s.phase = .idle then 5
    else if s.width.bits > 0 ∧ (s.clen = 0 ∨ s.clen.toNat > s.width.slots) then 6
    else 0

/-- The rows of spec/opcode_table.json as (match, mask) pairs (R91). -/
def opcodeTable : List (Word × Word) :=
  [(0x00000000, 0xFFFFFFFF), (0x10000000, 0xFFFFFFFF), (0x20000000, 0xFFFFFFE0), (0x30000000, 0xFFFFE0E0),
   (0x40000000, 0xFFFFFFFF), (0x50000000, 0xFFFFF8E0), (0x60000000, 0xFFFFFFFF), (0x70000000, 0xFFFF0000),
   (0x80000000, 0xFFFFFF00), (0x90000000, 0xFFFFFFFF)]

/-! ## Configuration conditions -/

/-- The degree a feeding command needs of CLEN: 1..WIDTH, or the null instance (R29, R172). -/
abbrev State.clenLegal (s : State) : Prop :=
  s.width.bits = 0 ∨ (1 ≤ s.clen.toNat ∧ s.clen.toNat ≤ s.width.slots)

/-- Slots `c` and up, and the pad bits, of a packed value are 0 (R44). -/
abbrev highClear {w : Nat} (v : BitVec w) (c : Nat) : Prop :=
  (∀ n < w / 5, c ≤ n → unpack v n = 0) ∧ (∀ p < w, 5 * (w / 5) ≤ p → v.getLsbD p = false)

/-- "Call a configuration well-formed when all three hold" (R44). -/
abbrev State.configWellFormed (s : State) : Prop :=
  (1 ≤ s.clen.toNat ∧ s.clen.toNat ≤ s.width.slots) ∧ ∀ i : Fin 5, highClear (s.gen i) s.clen.toNat

/-- The doubling relation of five generator values, over relations 1..4 and slots 0..WIDTH-1 (R121, C1). -/
abbrev doublesEverywhere {w : Nat} (slots : Nat) (gen : Fin 5 → BitVec w) : Prop :=
  ∀ i : Fin 4, ∀ j < slots, unpack (gen i.succ) j = double (unpack (gen i.castSucc) j)

/-- The doubling relation of the loaded configuration (R121). -/
abbrev State.doublingRelation (s : State) : Prop := doublesEverywhere s.width.slots s.gen

/-- The length condition of a configuration (R122). -/
abbrev State.lengthCondition (s : State) : Prop := s.clen.toNat ≤ s.width.slots

/-! ## Sequences of field elements -/

/-- The residue after division steps with a list of field elements, first to last (R130, R137). -/
def feedAll {w : Nat} (gen : Fin 5 → BitVec w) (clen : Nat) (r : BitVec w) (es : List FieldElem) : BitVec w :=
  es.foldl (divStep gen clen) r

/-- Slots `c - 1` down to 0 of a packed value: what TGT feeds of TARGET (R133), and the checksum symbols of a residue in
transmission order (R136). -/
def slotsDown {w : Nat} (v : BitVec w) (c : Nat) : List FieldElem :=
  (List.range c).reverse.map (unpack v)

/-- The prefix contribution: the top three bits of each byte, the separator, the bottom five bits of each byte (R150). -/
def prefixContribution (sep : FieldElem) (bytes : List Byte) : List FieldElem :=
  bytes.map (fun b => BitVec.ofNat 5 (b.toNat / 32)) ++ [sep] ++ bytes.map (fun b => BitVec.ofNat 5 (b.toNat % 32))

/-- The commands by which the host delivers a prefix: PFXB, then every byte twice (R101, R155). -/
def prefixCommands (bytes : List Byte) : List Instr :=
  .pfxb (BitVec.ofNat 16 bytes.length) :: (bytes.map .pfxd ++ bytes.map .pfxd)

/-- The number of elements the prefix sequence has still to yield (R38, R154). -/
def State.remaining (s : State) : Nat :=
  match s.phase with
  | .hi => (s.seqLen.toNat - s.seqIdx.toNat) + 1 + s.seqLen.toNat
  | .lo => s.seqLen.toNat - s.seqIdx.toNat
  | .idle => 0

/-- The residue of a sequence of elements fed after INIT under the loaded configuration (R135). -/
def State.residueOf (s : State) (es : List FieldElem) : BitVec s.width.bits :=
  feedAll s.gen s.clen.toNat 1 es

/-- A valid codeword (R135): the prefix contribution, the payload and the checksum symbols leave `residue() = target_residue`,
in all W bits. -/
def State.validCodeword (s : State) (prefixBytes : List Byte) (symbols : List FieldElem) : Prop :=
  s.residueOf (prefixContribution s.sep prefixBytes ++ symbols) = s.target

/-! ## The invariant -/

/-- The sequencer's position makes sense: IDLE with LEN = IDX = 0, else IDX < LEN (R37). -/
abbrev State.seqInv (s : State) : Prop :=
  if s.phase = .idle then s.seqLen = 0 ∧ s.seqIdx = 0 else s.seqIdx.toNat < s.seqLen.toNat

/-- The error record makes sense: ERRCODE is 0 exactly when ERR is 0, and never above 6 (R35, R171). -/
abbrev State.errInv (s : State) : Prop :=
  (s.errcode = 0 ↔ s.err = false) ∧ s.errcode.toNat ≤ 6

/-- CFG_OK = 1 means that the configuration now loaded passes the check (R34). -/
abbrev State.cfgOkInv (s : State) : Prop :=
  s.cfgOk = true → s.lengthCondition ∧ s.doublingRelation

/-- The invariant every step keeps, from any state that has it. -/
structure State.Inv (s : State) : Prop where
  seq : s.seqInv
  err : s.errInv
  cfgOk : s.cfgOkInv

/-! ## The host's procedures -/

/-- The events of a list, one after the other (R73). -/
def deliverAll : List PortEvent → State → Host.Outcome State Fault Refusal
  | [], s => .next s
  | e :: es, s =>
    match deliver e s with
    | .next t => deliverAll es t
    | .fault r => .fault r
    | .refused r => .refused r

/-- A configuration as the host holds it, at the widest packed width (R43). -/
structure HostConfig where
  clen : BitVec 5
  sep : BitVec 5
  gen : List (BitVec 128)
  target : BitVec 128
  codeLength : Word
  deriving DecidableEq, Repr

/-- The four writes of LDPK (R101). -/
def loadPacked (p : PackedReg) (v : BitVec 128) : List PortEvent :=
  [0, 1, 2, 3].map fun k => .write .b32 (p.base + 4 * k) (v.extractLsb' (32 * k) 32)

/-- The boot sequence, steps 1 to 6 (R192): reset, ID and PARAM read, the configuration written, CHECK, STATUS read,
CLRERR, INIT. -/
def bootEvents (c : HostConfig) : List PortEvent :=
  [.resetPulse, .read .b32 0x000, .read .b32 0x004,
   .write .b32 0x008 ((c.sep.setWidth 32 <<< 8) ||| c.clen.setWidth 32)]
  ++ (([0, 1, 2, 3, 4] : List (Fin 5)).flatMap fun i => loadPacked (.genSh i) (c.gen.getD i.val 0))
  ++ loadPacked .target c.target
  ++ [.write .b32 0x00C c.codeLength, commandWrite .check, .read .b32 0x010, commandWrite .clrerr, commandWrite .init]

/-! ## Arithmetic of the field and polynomials -/

/-- Carry-less product of two field elements, before reduction: the polynomial product over GF(2). -/
def carrylessMul (m c : FieldElem) : BitVec 9 :=
  ([0, 1, 2, 3, 4] : List Nat).foldl (fun acc i => if m.getLsbD i then acc ^^^ (c.setWidth 9 <<< i) else acc) 0

/-- Reduction of a polynomial of degree at most 8 by x^5 + x^3 + 1, from the top bit down (R12). -/
def reduceField (p : BitVec 9) : FieldElem :=
  (([3, 2, 1, 0] : List Nat).foldl (fun acc k => if acc.getLsbD (5 + k) then acc ^^^ (41 <<< k) else acc) p).setWidth 5

/-- The product of two elements of GF(32) = GF(2)[x] / (x^5 + x^3 + 1) (R12, R126). -/
def fieldMul (m c : FieldElem) : FieldElem := reduceField (carrylessMul m c)

/-- The element of a ring `K` a field element stands for, given the ring's α: bit `i` is the coefficient of α^i (R12). -/
def fieldValue {K : Type*} [CommRing K] (α : K) (c : FieldElem) : K :=
  ∑ i : Fin 5, if c.getLsbD i.val then α ^ i.val else 0

/-- `P_v(x)`, the polynomial of a packed value (R15). -/
noncomputable def packedPoly {K : Type*} [CommRing K] (α : K) {w : Nat} (v : BitVec w) : Polynomial K :=
  ∑ n ∈ Finset.range (w / 5), Polynomial.C (fieldValue α (unpack v n)) * Polynomial.X ^ n

/-- The generator polynomial of a configuration, its leading 1 implicit in GEN_SH0 (R126). -/
noncomputable def State.generatorPoly {K : Type*} [CommRing K] (α : K) (s : State) : Polynomial K :=
  Polynomial.X ^ s.clen.toNat
    + ∑ j ∈ Finset.range s.clen.toNat, Polynomial.C (fieldValue α (unpack s.genSh0 j)) * Polynomial.X ^ j

/-- `x^k + sum over i = 1..k of e_i * x^(k-i)`: the polynomial of `k` elements fed after INIT, first to last (R139). -/
noncomputable def messagePoly {K : Type*} [CommRing K] (α : K) (es : List FieldElem) : Polynomial K :=
  Polynomial.X ^ es.length
    + ∑ i : Fin es.length, Polynomial.C (fieldValue α es[i]) * Polynomial.X ^ (es.length - 1 - i.val)

end Sys2Proof.Machine
end

