-- ==== Sys2Proof/Certificates/Slice0/Obligations.lean ====
section
/-! DEFINITION. The statements about the block, one for each of its promises. Each docstring names the rules it comes from. -/

open Sys2Proof Sys2Proof.Machine

/-! ## Words -/

/-- Decoding the word of a command gives the command back, with every operand at every value (R91, R99). -/
def Obligations.DecodeOfEncodeIsTheCommand : Prop :=
  ∀ i : Instr, decode (encode i) = .ok i

/-- A command has one word: the word that decodes to it is the one it encodes to (R91, R98). -/
def Obligations.EncodeOfDecodeIsTheWord : Prop :=
  ∀ (v : Word) (i : Instr), decode v = .ok i → encode i = v

/-- OPC 0xA to 0xF, whatever the low bits, raises error 1 and has no other effect (R94). -/
def Obligations.ReservedOpcodeRaisesIllegalOpcode : Prop :=
  ∀ (v : Word) (s : State), 0xA0000000 ≤ v.toNat → runCommand v s = .next (s.rejected 1)

/-- A defined opcode with a reserved bit of its layout set raises error 2 and has no other effect (R95). -/
def Obligations.ReservedBitRaisesReservedBits : Prop :=
  ∀ (v : Word) (s : State), ∀ row ∈ opcodeTable,
    v &&& 0xF0000000 = row.1 → v &&& row.2 ≠ row.1 → runCommand v s = .next (s.rejected 2)

/-- Every word either fits exactly one row of the opcode table and executes that command, or fits none and raises error
1 or 2 (R99). -/
def Obligations.EveryWordExecutesOrRaisesOneError : Prop :=
  ∀ (v : Word) (s : State),
    (∃ i, decode v = .ok i ∧ runCommand v s = exec i s ∧ ∃! row, row ∈ opcodeTable ∧ v &&& row.2 = row.1) ∨
    ((∀ row ∈ opcodeTable, v &&& row.2 ≠ row.1) ∧ ∃ c : BitVec 4, (c = 1 ∨ c = 2) ∧
      runCommand v s = .next (s.rejected c))

/-- Every field is the unsigned number its bits spell: words written as numbers decode to the operands they name (R91,
R92, R99). -/
def Obligations.FieldsAreTheNumbersTheirBitsSpell : Prop :=
  (∀ e < 32, decode (BitVec.ofNat 32 (0x20000000 + e)) = .ok (.feed (BitVec.ofNat 5 e))) ∧
  (∀ d < 32, ∀ a < 32,
    decode (BitVec.ofNat 32 (0x30000000 + 256 * d + a)) = .ok (.mulx (BitVec.ofNat 5 d) (BitVec.ofNat 5 a))) ∧
  (∀ src < 8, ∀ n < 32,
    decode (BitVec.ofNat 32 (0x50000000 + 256 * src + n)) = .ok (.unpack (BitVec.ofNat 3 src) (BitVec.ofNat 5 n))) ∧
  (∀ n < 65536, decode (BitVec.ofNat 32 (0x70000000 + n)) = .ok (.pfxb (BitVec.ofNat 16 n))) ∧
  (∀ b < 256, decode (BitVec.ofNat 32 (0x80000000 + b)) = .ok (.pfxd (BitVec.ofNat 8 b)))

/-- Words written out in the command rules decode to the commands they stand for (R113, R114, R123, R131 to R133, R152,
R153, R165, R166). -/
def Obligations.ExampleWordsDecodeToTheirCommands : Prop :=
  decode 0x00000000 = .ok .nop ∧ decode 0x10000000 = .ok .init ∧ decode 0x20000014 = .ok (.feed 20) ∧
  decode 0x30000305 = .ok (.mulx 3 5) ∧ decode 0x40000000 = .ok .tgt ∧ decode 0x50000205 = .ok (.unpack 2 5) ∧
  decode 0x60000000 = .ok .check ∧ decode 0x70000002 = .ok (.pfxb 2) ∧ decode 0x80000061 = .ok (.pfxd 0x61) ∧
  decode 0x90000000 = .ok .clrerr

/-! ## The step and the port -/

/-- When the port's next event is a 32-bit write of `v` to CMD, the step runs the command `v` decodes to, on the state
with that event taken and the write answered; a word that decodes to none is rejected with its code (R73, R79, R99). -/
def Obligations.StepRunsTheDecodedCommand : Prop :=
  ∀ (s : State) (rest : List PortEvent) (v : Word), s.pending = .write .b32 0x018 v :: rest →
    (∀ i, decode v = .ok i → step s = exec i { s with pending := rest, response := .done }) ∧
    (decode v = .error .illegalOpcode →
      step s = .next (({ s with pending := rest, response := .done } : State).rejected 1)) ∧
    (decode v = .error .reservedBits →
      step s = .next (({ s with pending := rest, response := .done } : State).rejected 2))

/-- The model's interface: a word placed with `withFetchWord` is the command the next step runs, and the events already
queued stay queued (log 4). -/
def Obligations.PlacedWordIsTheNextCommand : Prop :=
  ∀ (s : State) (w : Nat), w < 2 ^ 32 →
    step (s.withFetchWord 32 w) = runCommand (BitVec.ofNat 32 w) { s with response := .done }

/-- Without a write or reset nothing changes: an idle step leaves the state as it is (log 2), and a read of any kind
changes only the port's queue and answer (R17, R70). -/
def Obligations.OnlyWritesAndResetChangeTheBlock : Prop :=
  (∀ s : State, s.pending = [] → step s = .next s) ∧
  (∀ (s : State) (size : AccessSize) (off : Nat) (rest : List PortEvent), s.pending = .read size off :: rest →
    ∃ r, step s = .next { s with pending := rest, response := r })

/-- The block never stops: whatever the host asks, short of a second host, the step answers a next state with that event
taken from the queue (R170). -/
def Obligations.TheBlockNeverStops : Prop :=
  ∀ s : State, s.pending.head? ≠ some .secondHost →
    ∃ t, step s = .next t ∧ t.pending = s.pending.tail ∧ t.width = s.width

/-- An access by a second host is refused (R183, I10). -/
def Obligations.SecondHostIsRefused : Prop :=
  ∀ (s : State) (rest : List PortEvent), s.pending = .secondHost :: rest → step s = .refused .secondHost

/-- What each register reads as (R79), the field positions written as place values: ID (R40), PARAM (R39), CFG, CODE_LENGTH,
STATUS, ERRCODE, CMD, RESULT, SEQ_CNT, SEQ_REMAIN where the sequencer's position makes sense (R37, R38), and the four
words of every packed register (R67). -/
def Obligations.ReadsReturnTheRegisters : Prop :=
  ∀ (s : State) (rest : List PortEvent) (off x : Nat), s.pending = .read .b32 off :: rest →
    ((off = 0x000 ∧ x = 0x52423332) ∨
     (off = 0x004 ∧ x = s.width.bits + 256 * (s.width.bits / 5) + 65536 * 41 + 16777216 * 5) ∨
     (off = 0x008 ∧ x = s.clen.toNat + 256 * s.sep.toNat) ∨
     (off = 0x00C ∧ x = s.codeLength.toNat) ∨
     (off = 0x010 ∧ x = s.err.toNat + 2 * s.cfgOk.toNat + 4 * (match s.phase with | .idle => 0 | .hi => 1 | .lo => 2)) ∨
     (off = 0x014 ∧ x = s.errcode.toNat) ∨
     (off = 0x018 ∧ x = 0) ∨
     (off = 0x01C ∧ x = s.result.toNat) ∨
     (off = 0x020 ∧ x = s.seqLen.toNat + 65536 * s.seqIdx.toNat) ∨
     (off = 0x024 ∧ s.seqInv ∧ x = s.remaining) ∨
     (∃ k < 4, off = 0x040 + 4 * k ∧ x = s.residue.toNat / 2 ^ (32 * k) % 2 ^ 32) ∨
     (∃ k < 4, off = 0x050 + 4 * k ∧ x = s.target.toNat / 2 ^ (32 * k) % 2 ^ 32) ∨
     (∃ i : Fin 5, ∃ k < 4, off = 0x060 + 16 * i.val + 4 * k ∧ x = (s.gen i).toNat / 2 ^ (32 * k) % 2 ^ 32)) →
    x < 2 ^ 32 ∧ step s = .next { s with pending := rest, response := .data (BitVec.ofNat 32 x) }

/-- What a write stores (R79): CFG's two fields, with CLEN hard-wired on the null instance (R28, R29); CODE_LENGTH; 32 bits
of TARGET or of a GEN_SH. CFG and GEN_SH writes clear CFG_OK (R34), and nothing else changes. -/
def Obligations.WritesStoreTheRegisters : Prop :=
  ∀ (s : State) (rest : List PortEvent) (off : Nat) (v : Word), s.pending = .write .b32 off v :: rest →
    (off = 0x008 → s.width.bits > 0 →
      step s = .next { s with
        clenField := BitVec.ofNat 5 (v.toNat % 32), sep := BitVec.ofNat 5 (v.toNat / 256 % 32), cfgOk := false,
        pending := rest, response := .done }) ∧
    (off = 0x008 → s.width.bits = 0 →
      ∃ t, step s = .next t ∧ t.clen = 0 ∧
        t = { s with
          clenField := t.clenField, sep := BitVec.ofNat 5 (v.toNat / 256 % 32), cfgOk := false,
          pending := rest, response := .done }) ∧
    (off = 0x00C → step s = .next { s with codeLength := v, pending := rest, response := .done }) ∧
    (∀ k < 4, off = 0x050 + 4 * k →
      ∃ x : BitVec s.width.bits, step s = .next { s with target := x, pending := rest, response := .done } ∧
        ∀ p < s.width.bits, x.getLsbD p
          = if 32 * k ≤ p ∧ p < 32 * k + 32 then v.getLsbD (p - 32 * k) else s.target.getLsbD p) ∧
    (∀ i : Fin 5, ∀ k < 4, off = 0x060 + 16 * i.val + 4 * k →
      ∃ x : BitVec s.width.bits,
        step s = .next { s.setGen i x with cfgOk := false, pending := rest, response := .done } ∧
        ∀ p < s.width.bits, x.getLsbD p
          = if 32 * k ≤ p ∧ p < 32 * k + 32 then v.getLsbD (p - 32 * k) else (s.gen i).getLsbD p)

/-- A 32-bit aligned write to a read-only register is legal and ignored (R66): ID, PARAM, STATUS, ERRCODE, RESULT, SEQ_CNT,
SEQ_REMAIN and the RESIDUE words. -/
def Obligations.WritesToReadOnlyRegistersAreIgnored : Prop :=
  ∀ (s : State) (rest : List PortEvent) (v : Word),
    ∀ off ∈ [0x000, 0x004, 0x010, 0x014, 0x01C, 0x020, 0x024, 0x040, 0x044, 0x048, 0x04C],
      s.pending = .write .b32 off v :: rest → step s = .next { s with pending := rest, response := .done }

/-- An access of another width than 32 bits, at a misaligned offset or at an unmapped one gets the bus error response and
changes no state, ERR and ERRCODE among it; every other access is answered (R62 to R65). -/
def Obligations.IllegalAccessIsABusError : Prop :=
  ∀ (s : State) (rest : List PortEvent) (size : AccessSize) (off : Nat) (v : Word),
    (s.pending = .read size off :: rest ∨ s.pending = .write size off v :: rest) →
    (¬(size = .b32 ∧ off % 4 = 0 ∧ (off ≤ 0x024 ∨ (0x040 ≤ off ∧ off ≤ 0x0AC))) →
      step s = .next { s with pending := rest, response := .busError }) ∧
    ((size = .b32 ∧ off % 4 = 0 ∧ (off ≤ 0x024 ∨ (0x040 ≤ off ∧ off ≤ 0x0AC))) →
      ∃ t, step s = .next t ∧ t.response ≠ .busError)

/-- A word at or above W of a packed register does not exist: it reads 0, and a write to it is ignored and no bus error; one
to a GEN_SH register still clears CFG_OK (R68). -/
def Obligations.AbsentWordsReadZeroAndIgnoreWrites : Prop :=
  ∀ (s : State) (rest : List PortEvent) (p : PackedReg) (k : Nat) (v : Word), k < 4 → s.width.bits ≤ 32 * k →
    (s.pending = .read .b32 (0x040 + 16 * p.number + 4 * k) :: rest →
      step s = .next { s with pending := rest, response := .data 0 }) ∧
    (s.pending = .write .b32 (0x040 + 16 * p.number + 4 * k) v :: rest →
      step s = .next { s with
        cfgOk := if p = .residue ∨ p = .target then s.cfgOk else false, pending := rest, response := .done })

/-- The four writes of LDPK load a packed register with the low W bits of a value, whatever W is (R67, R68, R101). -/
def Obligations.FourWritesLoadAPackedRegister : Prop :=
  ∀ (s : State) (x : BitVec 128),
    deliverAll (loadPacked .target x) s
      = .next { s with target := x.setWidth s.width.bits, response := .done } ∧
    ∀ i : Fin 5, deliverAll (loadPacked (.genSh i) x) s
      = .next { s.setGen i (x.setWidth s.width.bits) with cfgOk := false, response := .done }

/-! ## Reset and boot -/

/-- Reset, in any state, puts every element to its value: RESIDUE to ONE (the null value when W = 0), everything else to 0,
the sequencer idle (R45, R190); and `State.reset` holds the same values. -/
def Obligations.ResetPutsEveryElementToItsValue : Prop :=
  let fresh (t : State) : Prop :=
    t.residue.toNat = (if t.width.bits = 0 then 0 else 1) ∧ t.target.toNat = 0 ∧ (∀ i, (t.gen i).toNat = 0) ∧
    t.clen = 0 ∧ t.clenField = 0 ∧ t.sep = 0 ∧ t.codeLength = 0 ∧ t.err = false ∧ t.cfgOk = false ∧ t.errcode = 0 ∧
    t.result = 0 ∧ t.phase = .idle ∧ t.seqLen = 0 ∧ t.seqIdx = 0
  fresh State.reset ∧
  ∀ (s : State) (rest : List PortEvent), s.pending = .resetPulse :: rest →
    ∃ t, step s = .next t ∧ t.width = s.width ∧ t.pending = rest ∧ fresh t

/-- With CLEN = 0, as reset leaves it, an instance with W > 0 rejects every feeding command with DEGREE_RANGE: FEED, TGT,
PFXB 0, and PFXD once a sequence is in progress (R45, R191; R174 for a PFXD with none in progress). -/
def Obligations.UnconfiguredBlockRejectsFeeding : Prop :=
  ∀ s : State, s.width.bits > 0 → s.clen = 0 →
    (∀ e, exec (.feed e) s = .next (s.rejected 6)) ∧ exec .tgt s = .next (s.rejected 6) ∧
    exec (.pfxb 0) s = .next (s.rejected 6) ∧
    ∀ b, exec (.pfxd b) s = .next (s.rejected (if s.phase = .idle then 5 else 6))

/-- The boot sequence, from any state, ends with the configuration loaded, the error record clear, RESIDUE = ONE, the
sequencer idle, and CFG_OK = 1 exactly when the loaded configuration passes the check (R192). -/
def Obligations.BootLoadsAndChecksTheConfiguration : Prop :=
  ∀ (s : State) (c : HostConfig), c.gen.length = 5 →
    ∃ t, deliverAll (bootEvents c) s = .next t ∧ t.width = s.width ∧ t.pending = s.pending ∧
      t.clen = (if s.width.bits = 0 then 0 else c.clen) ∧ t.sep = c.sep ∧ t.codeLength = c.codeLength ∧
      t.target.toNat = c.target.toNat % 2 ^ s.width.bits ∧
      (∀ i : Fin 5, (t.gen i).toNat = (c.gen.getD i.val 0).toNat % 2 ^ s.width.bits) ∧
      t.residue.toNat = (if s.width.bits = 0 then 0 else 1) ∧ t.err = false ∧ t.errcode = 0 ∧ t.phase = .idle ∧
      t.seqLen = 0 ∧ t.seqIdx = 0 ∧ (t.cfgOk = true ↔ t.lengthCondition ∧ t.doublingRelation)

/-! ## Control commands -/

/-- NOP: word 0x00000000, no state change; any other word with OPC 0 raises RESERVED_BITS (R165). -/
def Obligations.NopChangesNothing : Prop :=
  encode .nop = 0x00000000 ∧
  (∀ s : State, exec .nop s = .next s) ∧
  ∀ (v : Word) (s : State), v &&& 0xF0000000 = 0x00000000 → v ≠ 0x00000000 → runCommand v s = .next (s.rejected 2)

/-- CLRERR: word 0x90000000; ERR and ERRCODE become 0 and nothing else changes, so that it has no effect on an empty
record; any other word with OPC 9 raises RESERVED_BITS and clears nothing (R166). -/
def Obligations.ClrerrClearsTheErrorRecord : Prop :=
  encode .clrerr = 0x90000000 ∧
  (∀ s : State, exec .clrerr s = .next { s with err := false, errcode := 0 }) ∧
  (∀ s : State, s.errInv → s.err = false → exec .clrerr s = .next s) ∧
  ∀ (v : Word) (s : State), v &&& 0xF0000000 = 0x90000000 → v ≠ 0x90000000 → runCommand v s = .next (s.rejected 2)

/-! ## The packed field vector unit -/

/-- UNPACK (R113): its word; BAD_SOURCE for source 7; SLOT_RANGE for a slot at or above WIDTH when W > 0; else RESULT is the
slot's five bits, which are 0 on the null instance, and nothing else changes. -/
def Obligations.UnpackReadsOneSlot : Prop :=
  (∀ src n, (encode (.unpack src n)).toNat = 0x50000000 + 256 * src.toNat + n.toNat) ∧
  (∀ (v : Word) (s : State), v &&& 0xF0000000 = 0x50000000 → v &&& 0xFFFFF8E0 ≠ 0x50000000 →
    runCommand v s = .next (s.rejected 2)) ∧
  (∀ (s : State) (n : BitVec 5), exec (.unpack 7 n) s = .next (s.rejected 3)) ∧
  (∀ (s : State) (src : BitVec 3) (n : BitVec 5), src ≠ 7 → s.width.bits > 0 → s.width.slots ≤ n.toNat →
    exec (.unpack src n) s = .next (s.rejected 4)) ∧
  (∀ (s : State) (p : PackedReg) (src : BitVec 3) (n : BitVec 5), src.toNat = p.number →
    (s.width.bits = 0 ∨ n.toNat < s.width.slots) →
    exec (.unpack src n) s
      = .next { s with result := BitVec.ofNat 32 ((s.packed p).toNat / 2 ^ (5 * n.toNat) % 32) })

/-- UNPACK's source field selects RESIDUE, TARGET and GEN_SH0 to GEN_SH4 for 0 to 6, and raises BAD_SOURCE for 7 (R96). -/
def Obligations.SourceFieldSelectsTheRegister : Prop :=
  ∀ (s : State) (n : BitVec 5), n.toNat < s.width.slots →
    let reads (src : BitVec 3) (x : Nat) : Prop :=
      exec (.unpack src n) s = .next { s with result := BitVec.ofNat 32 (x / 2 ^ (5 * n.toNat) % 32) }
    reads 0 s.residue.toNat ∧ reads 1 s.target.toNat ∧ reads 2 s.genSh0.toNat ∧ reads 3 s.genSh1.toNat ∧
    reads 4 s.genSh2.toNat ∧ reads 5 s.genSh3.toNat ∧ reads 6 s.genSh4.toNat ∧
    exec (.unpack 7 n) s = .next (s.rejected 3)

/-- MULX (R114, R111), bit by bit: slot d-1 goes to RESULT, every other bit moves up by five, `a` enters slot 0, and bits at
or above W are lost; DEGREE_RANGE when W > 0 and `d` is outside 1..WIDTH; on the null instance only RESULT changes, to 0. -/
def Obligations.MulxShiftsByOneSlot : Prop :=
  (∀ d a, (encode (.mulx d a)).toNat = 0x30000000 + 256 * d.toNat + a.toNat) ∧
  (∀ (v : Word) (s : State), v &&& 0xF0000000 = 0x30000000 → v &&& 0xFFFFE0E0 ≠ 0x30000000 →
    runCommand v s = .next (s.rejected 2)) ∧
  (∀ (s : State) (d a : BitVec 5), s.width.bits > 0 → (d = 0 ∨ s.width.slots < d.toNat) →
    exec (.mulx d a) s = .next (s.rejected 6)) ∧
  (∀ (s : State) (d a : BitVec 5), s.width.bits = 0 → exec (.mulx d a) s = .next { s with result := 0 }) ∧
  (∀ (s : State) (d a : BitVec 5), 1 ≤ d.toNat → d.toNat ≤ s.width.slots →
    ∃ r : BitVec s.width.bits,
      exec (.mulx d a) s = .next { s with
        residue := r, result := BitVec.ofNat 32 (s.residue.toNat / 2 ^ (5 * (d.toNat - 1)) % 32) } ∧
      ∀ p < s.width.bits, r.getLsbD p
        = if p < 5 then a.getLsbD p
          else if 5 * d.toNat ≤ p ∧ p < 5 * d.toNat + 5 then false
          else s.residue.getLsbD (p - 5))

/-- `mulx` slot by slot, its pad bits, and, when slots d..WIDTH-1 and the pad bits are 0, the polynomial
`x * (P_v - dropped * x^(d-1)) + a` (R112). -/
def Obligations.MulxSlotBySlot : Prop :=
  ∀ (w : PackedWidth) (v : BitVec w.bits) (d : Nat) (a : FieldElem), w.bits > 0 → 1 ≤ d → d ≤ w.slots →
    (mulx v d a).2 = unpack v (d - 1) ∧ unpack (mulx v d a).1 0 = a ∧
    (d < w.slots → unpack (mulx v d a).1 d = 0) ∧
    (∀ n, 1 ≤ n → n < w.slots → n ≠ d → unpack (mulx v d a).1 n = unpack v (n - 1)) ∧
    (∀ p < w.bits, 5 * w.slots ≤ p → (mulx v d a).1.getLsbD p
      = if d < w.slots then (unpack v (w.slots - 1)).getLsbD (p - 5 * w.slots) else false) ∧
    (highClear v d → ∀ (K : Type) [CommRing K] (α : K),
      packedPoly α (mulx v d a).1
        = Polynomial.X * (packedPoly α v - Polynomial.C (fieldValue α (unpack v (d - 1))) * Polynomial.X ^ (d - 1))
          + Polynomial.C (fieldValue α a))

/-- The exact corner values of MULX at each width (R115). -/
def Obligations.MulxCornerValues : Prop :=
  mulx (0x3FFFFFFF#32) 6 0 = (0x3FFFFFE0#32, 31) ∧ mulx (0x3FFFFFFF#32) 3 7 = (0xFFF07FE7#32, 31) ∧
  mulx (1#32) 1 0 = (0#32, 1) ∧
  mulx (0xFFFFFFFFFFFFFFFF#64) 12 0 = (0x0FFFFFFFFFFFFFE0#64, 31) ∧
  mulx (0xFFFFFFFFFFFFFFFF#64) 11 0 = (0xF07FFFFFFFFFFFE0#64, 31) ∧
  mulx (1#128 <<< 120) 25 3 = (0x3#128, 1) ∧
  mulx (1#128 <<< 120) 24 3 = (0x20000000000000000000000000000003#128, 0)

/-! ## The configuration checker -/

/-- `double` is multiplication by α, the field element 2; its formula, its table, and that it is a bijection (R120). -/
def Obligations.DoubleIsMultiplicationByAlpha : Prop :=
  (∀ c : FieldElem, double c = fieldMul 2 c) ∧
  (∀ c : FieldElem, (double c).toNat = (if c.toNat < 16 then 2 * c.toNat else (2 * c.toNat) ^^^ 41)) ∧
  (List.range 32).map (fun c => (double (BitVec.ofNat 5 c)).toNat)
    = [0, 2, 4, 6, 8, 10, 12, 14, 16, 18, 20, 22, 24, 26, 28, 30, 9, 11, 13, 15, 1, 3, 5, 7, 25, 27, 29, 31, 17, 19, 21, 23] ∧
  Function.Bijective double

/-- CHECK (R123, R124): word 0x60000000; CFG_OK and RESULT are the verdict, and nothing else changes. CLEN > WIDTH is the
length failure; a configuration in the doubling relation passes; else RESULT names the first failing relation and slot. A
failed check is no error; RESERVED_BITS is the only one. -/
def Obligations.CheckReportsTheFirstFailure : Prop :=
  encode .check = 0x60000000 ∧
  (∀ (v : Word) (s : State), v &&& 0xF0000000 = 0x60000000 → v ≠ 0x60000000 → runCommand v s = .next (s.rejected 2)) ∧
  ∀ s : State,
    (s.width.slots < s.clen.toNat → exec .check s = .next { s with cfgOk := false, result := 0x80000000 }) ∧
    (s.lengthCondition → s.doublingRelation → exec .check s = .next { s with cfgOk := true, result := 0 }) ∧
    (s.lengthCondition → ∀ (i : Fin 4) (j : Nat), j < s.width.slots →
      unpack (s.gen i.succ) j ≠ double (unpack (s.gen i.castSucc) j) →
      (∀ (i' : Fin 4) (j' : Nat), j' < s.width.slots → (i' < i ∨ (i' = i ∧ j' < j)) →
        unpack (s.gen i'.succ) j' = double (unpack (s.gen i'.castSucc) j')) →
      exec .check s
        = .next { s with cfgOk := false, result := BitVec.ofNat 32 (0x40000000 + 256 * (i.val + 1) + j) })

/-- One flipped slot bit of any generator register makes a passing configuration fail; one flipped pad bit leaves it passing
(R123, C9). -/
def Obligations.FlippedSlotBitFailsTheCheck : Prop :=
  ∀ (s : State) (i : Fin 5) (p : Nat), s.lengthCondition → s.doublingRelation → p < s.width.bits →
    let flipped := s.setGen i (s.gen i ^^^ BitVec.twoPow s.width.bits p)
    (p < 5 * s.width.slots →
      ∃ t, exec .check flipped = .next t ∧ t.cfgOk = false ∧ 0x40000000 < t.result.toNat) ∧
    (5 * s.width.slots ≤ p → ∃ t, exec .check flipped = .next t ∧ t.cfgOk = true ∧ t.result = 0)

/-- No command reads CFG_OK: with another value of it, every command but CHECK has the same effect and keeps that value, and
CHECK, which overwrites it, ends in the same state (R125, R34). -/
def Obligations.NoCommandReadsCfgOk : Prop :=
  ∀ (i : Instr) (s : State) (b : Bool),
    (i ≠ .check → exec i { s with cfgOk := b } = mapNext (fun t => { t with cfgOk := b }) (exec i s)) ∧
    exec .check { s with cfgOk := b } = exec .check s

/-- CODE_LENGTH is 0 at reset, is stored and read back, and no command reads or writes it: it counts nothing and enforces
nothing (R31). -/
def Obligations.CodeLengthIsOnlyStored : Prop :=
  (∀ w, (State.resetOf w).codeLength = 0) ∧
  (∀ (s : State) (v : Word) (rest : List PortEvent), s.pending = .write .b32 0x00C v :: .read .b32 0x00C :: rest →
    ∃ t, step s = .next t ∧ step t = .next { s with codeLength := v, pending := rest, response := .data v }) ∧
  ∀ (i : Instr) (s : State) (x : Word),
    exec i { s with codeLength := x } = mapNext (fun t => { t with codeLength := x }) (exec i s) ∧
    ∃ t, exec i s = .next t ∧ t.codeLength = s.codeLength

/-- Under the doubling relation, GEN_SH`i` is GEN_SH0 times α^i slot by slot, and the five conditional XORs by `m` are the
field product by `m` (R126). -/
def Obligations.GeneratorTableMultipliesByFieldElements : Prop :=
  ∀ s : State, s.doublingRelation → ∀ j < s.width.slots,
    (∀ i : Fin 5, unpack (s.gen i) j = fieldMul (BitVec.ofNat 5 (2 ^ i.val)) (unpack s.genSh0 j)) ∧
    ∀ m : FieldElem, unpack (addGenerators s.gen m 0) j = fieldMul m (unpack s.genSh0 j)

/-! ## The residue accumulator -/

/-- INIT (R131): word 0x10000000; RESIDUE becomes ONE, which on the null instance is the value it has, the sequencer becomes
idle, and nothing else changes; RESERVED_BITS is its only error. -/
def Obligations.InitStartsANewComputation : Prop :=
  encode .init = 0x10000000 ∧
  (∀ s : State, ∃ r : BitVec s.width.bits,
    exec .init s = .next { s with residue := r, phase := .idle, seqLen := 0, seqIdx := 0 } ∧
    r.toNat = (if s.width.bits = 0 then 0 else 1)) ∧
  ∀ (v : Word) (s : State), v &&& 0xF0000000 = 0x10000000 → v ≠ 0x10000000 → runCommand v s = .next (s.rejected 2)

/-- FEED (R132, R130), bit by bit: the residue moves up one slot at degree CLEN, `e` enters slot 0, and each GEN_SH`i` is
XORed in, all W bits, when bit `i` of the dropped slot CLEN-1 is 1; nothing else changes. DEGREE_RANGE when W > 0 and CLEN is
outside 1..WIDTH; a no-op on the null instance. -/
def Obligations.FeedIsOneDivisionStep : Prop :=
  (∀ e, (encode (.feed e)).toNat = 0x20000000 + e.toNat) ∧
  (∀ (v : Word) (s : State), v &&& 0xF0000000 = 0x20000000 → v &&& 0xFFFFFFE0 ≠ 0x20000000 →
    runCommand v s = .next (s.rejected 2)) ∧
  (∀ (s : State) (e : FieldElem), s.width.bits > 0 → (s.clen = 0 ∨ s.width.slots < s.clen.toNat) →
    exec (.feed e) s = .next (s.rejected 6)) ∧
  (∀ (s : State) (e : FieldElem), s.width.bits = 0 → exec (.feed e) s = .next s) ∧
  (∀ (s : State) (e : FieldElem), 1 ≤ s.clen.toNat → s.clen.toNat ≤ s.width.slots →
    ∃ r : BitVec s.width.bits, exec (.feed e) s = .next { s with residue := r } ∧
      ∀ p < s.width.bits,
        let dropped (i : Nat) : Bool := s.residue.getLsbD (5 * (s.clen.toNat - 1) + i)
        let shifted : Bool :=
          if p < 5 then e.getLsbD p
          else if 5 * s.clen.toNat ≤ p ∧ p < 5 * s.clen.toNat + 5 then false
          else s.residue.getLsbD (p - 5)
        r.getLsbD p = (shifted ^^ (dropped 0 && s.genSh0.getLsbD p) ^^ (dropped 1 && s.genSh1.getLsbD p)
          ^^ (dropped 2 && s.genSh2.getLsbD p) ^^ (dropped 3 && s.genSh3.getLsbD p)
          ^^ (dropped 4 && s.genSh4.getLsbD p)))

/-- Under the doubling relation a FEED is a step of long division over GF(32): slot `n` becomes slot `n-1` (or `e`, or 0 at
slot CLEN) plus the dropped coefficient times slot `n` of the generator (R130, R126). -/
def Obligations.FeedAddsTheDroppedMultipleOfTheGenerator : Prop :=
  ∀ (s : State) (e : FieldElem), s.doublingRelation → 1 ≤ s.clen.toNat → s.clen.toNat ≤ s.width.slots →
    ∃ r : BitVec s.width.bits, exec (.feed e) s = .next { s with residue := r } ∧
      ∀ n < s.width.slots, unpack r n
        = (if n = 0 then e else if n = s.clen.toNat then 0 else unpack s.residue (n - 1))
          ^^^ fieldMul (unpack s.residue (s.clen.toNat - 1)) (unpack s.genSh0 n)

/-- TGT (R133, R137): word 0x40000000; the CLEN feeds of TARGET's slots CLEN-1 down to 0 in one command, RESIDUE alone
changing; DEGREE_RANGE as for FEED; no change on the null instance. -/
def Obligations.TgtFeedsTheTargetSlots : Prop :=
  encode .tgt = 0x40000000 ∧
  (∀ (v : Word) (s : State), v &&& 0xF0000000 = 0x40000000 → v ≠ 0x40000000 → runCommand v s = .next (s.rejected 2)) ∧
  (∀ s : State, s.width.bits > 0 → (s.clen = 0 ∨ s.width.slots < s.clen.toNat) → exec .tgt s = .next (s.rejected 6)) ∧
  (∀ s : State, s.width.bits = 0 → exec .tgt s = .next s) ∧
  (∀ s : State, 1 ≤ s.clen.toNat → s.clen.toNat ≤ s.width.slots →
    ∃ r : BitVec s.width.bits, exec .tgt s = .next { s with residue := r } ∧
      execAll ((slotsDown s.target s.clen.toNat).map .feed) s = .next { s with residue := r })

/-! ## The prefix sequencer -/

/-- PFXB (R152): its word; with n > 0 the sequencer starts at HI and nothing else changes; with n = 0 the separator is fed
and the sequencer rests, or DEGREE_RANGE if CLEN is illegal. SEQ_REMAIN is then 2n + 1, and 0 for n = 0. -/
def Obligations.PfxbBeginsASequence : Prop :=
  (∀ n, (encode (.pfxb n)).toNat = 0x70000000 + n.toNat) ∧
  (∀ (v : Word) (s : State), v &&& 0xF0000000 = 0x70000000 → v &&& 0xFFFF0000 ≠ 0x70000000 →
    runCommand v s = .next (s.rejected 2)) ∧
  (∀ (s : State) (n : BitVec 16), n ≠ 0 →
    ∃ t, exec (.pfxb n) s = .next t ∧ t = { s with phase := .hi, seqLen := n, seqIdx := 0 } ∧
      (t.readReg .seqRemain).toNat = 2 * n.toNat + 1) ∧
  (∀ s : State, ¬s.clenLegal → exec (.pfxb 0) s = .next (s.rejected 6)) ∧
  (∀ s : State, s.clenLegal →
    ∃ r : BitVec s.width.bits, exec (.feed s.sep) s = .next { s with residue := r } ∧
      exec (.pfxb 0) s = .next { s with residue := r, phase := .idle, seqLen := 0, seqIdx := 0 } ∧
      ∀ t, exec (.pfxb 0) s = .next t → t.readReg .seqRemain = 0)

/-- PFXD (R153): its word; SEQ_STATE when idle, before DEGREE_RANGE when CLEN is illegal; a high-pass byte feeds its top three
bits, and the last one the separator too, turning to LO; a low-pass byte feeds its bottom five bits, and the last one ends
the sequence. Only RESIDUE and the sequencer change. -/
def Obligations.PfxdDeliversOneByte : Prop :=
  (∀ b, (encode (.pfxd b)).toNat = 0x80000000 + b.toNat) ∧
  (∀ (v : Word) (s : State), v &&& 0xF0000000 = 0x80000000 → v &&& 0xFFFFFF00 ≠ 0x80000000 →
    runCommand v s = .next (s.rejected 2)) ∧
  (∀ (s : State) (b : Byte), s.phase = .idle → exec (.pfxd b) s = .next (s.rejected 5)) ∧
  (∀ (s : State) (b : Byte), s.phase ≠ .idle → ¬s.clenLegal → exec (.pfxd b) s = .next (s.rejected 6)) ∧
  (∀ (s : State) (b : Byte), s.clenLegal →
    (s.phase = .hi → s.seqIdx + 1 ≠ s.seqLen → ∃ r : BitVec s.width.bits,
      execAll [.feed (BitVec.ofNat 5 (b.toNat / 32))] s = .next { s with residue := r } ∧
      exec (.pfxd b) s = .next { s with residue := r, seqIdx := s.seqIdx + 1 }) ∧
    (s.phase = .hi → s.seqIdx + 1 = s.seqLen → ∃ r : BitVec s.width.bits,
      execAll [.feed (BitVec.ofNat 5 (b.toNat / 32)), .feed s.sep] s = .next { s with residue := r } ∧
      exec (.pfxd b) s = .next { s with residue := r, phase := .lo, seqIdx := 0 }) ∧
    (s.phase = .lo → s.seqIdx + 1 ≠ s.seqLen → ∃ r : BitVec s.width.bits,
      execAll [.feed (BitVec.ofNat 5 (b.toNat % 32))] s = .next { s with residue := r } ∧
      exec (.pfxd b) s = .next { s with residue := r, seqIdx := s.seqIdx + 1 }) ∧
    (s.phase = .lo → s.seqIdx + 1 = s.seqLen → ∃ r : BitVec s.width.bits,
      execAll [.feed (BitVec.ofNat 5 (b.toNat % 32))] s = .next { s with residue := r } ∧
      exec (.pfxd b) s = .next { s with residue := r, phase := .idle, seqLen := 0, seqIdx := 0 }))

/-- Delivering a prefix of `n` bytes, PFXB and every byte twice, leaves the residue of feeding its `2n + 1` elements (top
three bits of each byte, separator, bottom five bits of each byte), the sequencer at rest and everything else unchanged
(R150, R151, R137). -/
def Obligations.PrefixDeliveryFeedsItsContribution : Prop :=
  ∀ (s : State) (bytes : List Byte), s.clenLegal → bytes.length < 65536 →
    (prefixContribution s.sep bytes).length = 2 * bytes.length + 1 ∧
    ∃ r : BitVec s.width.bits,
      execAll ((prefixContribution s.sep bytes).map .feed) s = .next { s with residue := r } ∧
      execAll (prefixCommands bytes) s
        = .next { s with residue := r, phase := .idle, seqLen := 0, seqIdx := 0 }

/-- SEQ_REMAIN is the exact count of elements still to come: 2n + 1 after PFXB n, lowered by 1 by each byte and by 2 by the
last byte of the high pass, and 0 once the sequence ends (R154, R38). -/
def Obligations.SeqRemainCountsExactly : Prop :=
  (∀ (s t : State) (n : BitVec 16), s.clenLegal → exec (.pfxb n) s = .next t →
    (t.readReg .seqRemain).toNat = if n = 0 then 0 else 2 * n.toNat + 1) ∧
  ∀ (s : State) (b : Byte), s.seqInv → s.clenLegal →
    (s.phase = .hi → ∃ t, exec (.pfxd b) s = .next t ∧
      (t.readReg .seqRemain).toNat + (if s.seqIdx + 1 = s.seqLen then 2 else 1) = (s.readReg .seqRemain).toNat) ∧
    (s.phase = .lo → ∃ t, exec (.pfxd b) s = .next t ∧
      (t.readReg .seqRemain).toNat + 1 = (s.readReg .seqRemain).toNat ∧
      (t.phase = .idle ↔ (t.readReg .seqRemain).toNat = 0))

/-! ## The whole machine -/

/-- The null instance: no command changes RESIDUE; RESIDUE and TARGET read 0 in every word; FEED and TGT do nothing, MULX and
UNPACK of a register leave 0 in RESULT, CHECK passes, and none of them raises an error (R138, C7). -/
def Obligations.NullInstanceIsInert : Prop :=
  ∀ s : State, s.width.bits = 0 →
    (∀ (i : Instr) (t : State), exec i s = .next t → t.residue.toNat = s.residue.toNat ∧
      ∀ k, t.readReg (.packedWord .residue k) = 0 ∧ t.readReg (.packedWord .target k) = 0) ∧
    (∀ e, exec (.feed e) s = .next s) ∧ exec .tgt s = .next s ∧
    (∀ d a, exec (.mulx d a) s = .next { s with result := 0 }) ∧
    (∀ src n, src ≠ 7 → exec (.unpack src n) s = .next { s with result := 0 }) ∧
    exec .check s = .next { s with cfgOk := true, result := 0 } ∧
    exec (.pfxb 0) s = .next { s with phase := .idle, seqLen := 0, seqIdx := 0 }

/-- The frame of every command: no command changes W, TARGET, GEN_SH, CFG or CODE_LENGTH (R24, R25), nor the port's queue and
answer; RESULT changes only by MULX, UNPACK and CHECK (R36); CFG_OK only by CHECK (R34); the sequencer only by INIT, PFXB
and PFXD (R156); RESIDUE only by INIT, FEED, MULX, TGT, PFXB 0 and PFXD (R22). -/
def Obligations.CommandsKeepTheirFrame : Prop :=
  ∀ (i : Instr) (s t : State), exec i s = .next t →
    t.width = s.width ∧ t.target.toNat = s.target.toNat ∧ (∀ j, (t.gen j).toNat = (s.gen j).toNat) ∧
    t.clenField = s.clenField ∧ t.sep = s.sep ∧ t.codeLength = s.codeLength ∧ t.pending = s.pending ∧
    t.response = s.response ∧
    ((∀ d a, i ≠ .mulx d a) → (∀ src n, i ≠ .unpack src n) → i ≠ .check → t.result = s.result) ∧
    (i ≠ .check → t.cfgOk = s.cfgOk) ∧
    (i ≠ .init → (∀ n, i ≠ .pfxb n) → (∀ b, i ≠ .pfxd b) →
      t.phase = s.phase ∧ t.seqLen = s.seqLen ∧ t.seqIdx = s.seqIdx) ∧
    (i ≠ .init → (∀ e, i ≠ .feed e) → (∀ d a, i ≠ .mulx d a) → i ≠ .tgt → i ≠ .pfxb 0 → (∀ b, i ≠ .pfxd b) →
      t.residue.toNat = s.residue.toNat)

/-- Only reset, INIT, FEED, TGT, MULX, PFXB with n = 0 and PFXD write RESIDUE: a step that changes it delivers one of them
(R22). -/
def Obligations.OnlyTheseEventsWriteResidue : Prop :=
  ∀ s t : State, step s = .next t → t.residue.toNat ≠ s.residue.toNat →
    s.pending.head? = some .resetPulse ∨
    ∃ v i, s.pending.head? = some (.write .b32 0x018 v) ∧ decode v = .ok i ∧
      (i = .init ∨ (∃ e, i = .feed e) ∨ i = .tgt ∨ (∃ d a, i = .mulx d a) ∨ i = .pfxb 0 ∨ ∃ b, i = .pfxd b)

/-- CFG_OK is cleared by reset and by every write to CFG or to a word of a GEN_SH, set to its verdict by CHECK (1 exactly
when the length condition and the doubling relation hold), and changed by no other step (R34). -/
def Obligations.OnlyResetCheckAndConfigurationWritesChangeCfgOk : Prop :=
  (∀ (s : State) (rest : List PortEvent), s.pending = .resetPulse :: rest →
    ∃ t, step s = .next t ∧ t.cfgOk = false) ∧
  (∀ (s : State) (rest : List PortEvent), s.pending = .write .b32 0x018 0x60000000 :: rest →
    ∃ t, step s = .next t ∧ (t.cfgOk = true ↔ s.lengthCondition ∧ s.doublingRelation)) ∧
  (∀ (s : State) (v : Word) (off : Nat) (rest : List PortEvent), s.pending = .write .b32 off v :: rest →
    (off = 0x008 ∨ (0x060 ≤ off ∧ off ≤ 0x0AC ∧ off % 4 = 0)) → ∃ t, step s = .next t ∧ t.cfgOk = false) ∧
  ∀ s t : State, step s = .next t → t.cfgOk ≠ s.cfgOk →
    s.pending.head? = some .resetPulse ∨ s.pending.head? = some (.write .b32 0x018 0x60000000) ∨
    ∃ off v, s.pending.head? = some (.write .b32 off v) ∧
      (off = 0x008 ∨ (0x060 ≤ off ∧ off ≤ 0x0AC ∧ off % 4 = 0)) ∧ t.cfgOk = false

/-- The error record (R33, R35, R170, R173): a step that sets ERR changes nothing but ERR and ERRCODE of what the command
found, and puts a code from 1 to 6 there; with ERR already 1 no command but CLRERR changes the record; ERR returns to 0 only
by CLRERR or reset. -/
def Obligations.ErrorRecordIsStickyAndPrecise : Prop :=
  (∀ (v : Word) (s t : State), runCommand v s = .next t → s.err = false → t.err = true →
    t = { s with err := true, errcode := t.errcode } ∧ 1 ≤ t.errcode.toNat ∧ t.errcode.toNat ≤ 6) ∧
  (∀ (v : Word) (s t : State), runCommand v s = .next t → s.err = true → decode v ≠ .ok .clrerr →
    t.err = true ∧ t.errcode = s.errcode) ∧
  (∀ s t : State, step s = .next t → s.err = true → t.err = false →
    s.pending.head? = some .resetPulse ∨ s.pending.head? = some (.write .b32 0x018 0x90000000))

/-- Commands execute while ERR = 1 as they do while it is 0: the error record has no influence on anything else (R33, R170). -/
def Obligations.ErrorRecordInfluencesNoCommand : Prop :=
  ∀ (i : Instr) (s : State) (e : Bool) (c : BitVec 4),
    mapNext (fun t => { t with err := false, errcode := 0 }) (exec i { s with err := e, errcode := c })
      = mapNext (fun t => { t with err := false, errcode := 0 }) (exec i s)

/-- The checks of each command word, in order (R172, R174): OPC 0xA to 0xF is ILLEGAL_OPCODE; then a reserved bit is
RESERVED_BITS; then a command whose own checks pass raises nothing, and one whose first failing check has code `c` is
rejected with `c` and changes nothing else. -/
def Obligations.ChecksOfEachCommand : Prop :=
  ∀ (v : Word) (s : State),
    (0xA0000000 ≤ v.toNat → runCommand v s = .next (s.rejected 1)) ∧
    (∀ row ∈ opcodeTable, v &&& 0xF0000000 = row.1 → v &&& row.2 ≠ row.1 → runCommand v s = .next (s.rejected 2)) ∧
    (∀ i, decode v = .ok i → s.expectedError i = 0 →
      ∃ t, runCommand v s = .next t ∧ (i ≠ .clrerr → t.err = s.err ∧ t.errcode = s.errcode)) ∧
    (∀ i, decode v = .ok i → s.expectedError i ≠ 0 → runCommand v s = .next (s.rejected (s.expectedError i)))

/-- Every step keeps the invariant: the sequencer's position makes sense (R37), ERRCODE is 0 exactly when ERR is 0 and never
above 6 (R35, R171), and CFG_OK = 1 only over a configuration that passes the check (R34). -/
def Obligations.EveryStepKeepsTheInvariant : Prop :=
  ∀ s t : State, s.Inv → step s = .next t → t.Inv

/-- The reset state of every instance has the invariant (R45). -/
def Obligations.ResetHasTheInvariant : Prop :=
  State.reset.Inv ∧ ∀ w, (State.resetOf w).Inv

/-- Under a well-formed configuration, from any residue with slots CLEN.. and pad bits 0, every command leaves them 0 and
keeps the configuration well-formed (R44), MULX taken at degree CLEN only (log 14); so they are 0 after INIT, whatever the
residue was, and after every later command. -/
def Obligations.ResidueStaysBelowTheGeneratorDegree : Prop :=
  (∀ (i : Instr) (s t : State), s.configWellFormed → highClear s.residue s.clen.toNat →
    (∀ d a, i = .mulx d a → d = s.clen) → exec i s = .next t →
    t.configWellFormed ∧ t.clen = s.clen ∧ highClear t.residue t.clen.toNat) ∧
  ∀ (is : List Instr) (s : State), s.configWellFormed → (∀ d a, Instr.mulx d a ∈ is → d = s.clen) →
    ∃ t, execAll (.init :: is) s = .next t ∧ t.configWellFormed ∧ t.clen = s.clen ∧
      highClear t.residue t.clen.toNat

/-- R44's invariant does not extend to MULX at another degree than CLEN: at the width of 32 bits there is a well-formed
configuration and a residue within it from which one MULX at a degree other than CLEN leaves it (log 14). -/
def Obligations.MulxAtAnotherDegreeLeavesTheResidueRange : Prop :=
  ∃ (s t : State) (d a : BitVec 5), s.width = .w32 ∧ s.configWellFormed ∧ highClear s.residue s.clen.toNat ∧
    d ≠ s.clen ∧ exec (.mulx d a) s = .next t ∧ ¬highClear t.residue t.clen.toNat

/-- Under a well-formed configuration no sequence of elements reaches a TARGET with a nonzero slot at or above CLEN or a
nonzero pad bit (R199, R44). -/
def Obligations.TargetBeyondTheDegreeIsNeverReached : Prop :=
  ∀ (s : State) (es : List FieldElem), s.configWellFormed → ¬highClear s.target s.clen.toNat →
    s.residueOf es ≠ s.target

/-- The validity rule (R135): INIT, the prefix and a FEED of every symbol leave RESIDUE equal to TARGET exactly for a valid
codeword. A mismatch is no error and sets no flag (R176, R42): ERR, ERRCODE, CFG_OK and
RESULT are as they were. -/
def Obligations.ValidCodewordsAreThoseThatReachTheTarget : Prop :=
  ∀ (s : State) (bytes : List Byte) (symbols : List FieldElem), s.clenLegal → bytes.length < 65536 →
    ∃ t, execAll (.init :: (prefixCommands bytes ++ symbols.map .feed)) s = .next t ∧
      (t.residue.toNat = t.target.toNat ↔ s.validCodeword bytes symbols) ∧ t.target.toNat = s.target.toNat ∧
      t.err = s.err ∧ t.errcode = s.errcode ∧ t.cfgOk = s.cfgOk ∧ t.result = s.result ∧ t.phase = .idle

/-- The checksum round trip (R136): under a well-formed configuration and a TARGET within it, generate with INIT, prefix,
payload and TGT; then INIT, the same prefix and payload and the checksum symbols read from that residue, slot CLEN-1 first,
leave RESIDUE = TARGET, and neither run raises an error. -/
def Obligations.GeneratedChecksumVerifies : Prop :=
  ∀ (s : State) (bytes : List Byte) (payload : List FieldElem),
    s.configWellFormed → highClear s.target s.clen.toNat → bytes.length < 65536 →
    ∃ t u, execAll (.init :: (prefixCommands bytes ++ payload.map .feed ++ [.tgt])) s = .next t ∧
      execAll (.init :: (prefixCommands bytes ++ payload.map .feed
        ++ (slotsDown t.residue s.clen.toNat).map .feed)) s = .next u ∧
      u.residue.toNat = s.target.toNat ∧ t.err = s.err ∧ u.err = s.err

/-- Polynomial long division (R139): over any commutative ring of characteristic 2 with a root α of x^5 + x^3 + 1 (the
model's choice of the ring, DEDUCED: log 22), under a well-formed configuration in the doubling relation, INIT and FEEDs of
e_1 .. e_k leave the remainder of x^k + sum of e_i x^(k-i) by the generator polynomial. -/
def Obligations.ResidueIsThePolynomialRemainder : Prop :=
  ∀ (K : Type) [CommRing K] (α : K), (2 : K) = 0 → α ^ 5 + α ^ 3 + 1 = 0 →
    ∀ (s : State) (es : List FieldElem), s.configWellFormed → s.doublingRelation →
      ∃ t, execAll (.init :: es.map .feed) s = .next t ∧
        packedPoly α t.residue = messagePoly α es %ₘ s.generatorPoly α

/-! ## The assembly language -/

/-- A command line assembles to the write of its word to CMD; one with an operand outside its field's range is refused and
never truncated, and so is one with another number of operands (the model's choice: log 17). WR and RD are the write and the read they name, a value of more
than 32 bits being refused (R100). -/
def Obligations.AssemblerRefusesOutOfRangeOperands : Prop :=
  let line (m : Mnemonic) (ops : List Nat) (ok : Prop) (word : Nat) : Prop :=
    (ok → (AsmLine.command m ops).events = some [.write .b32 0x018 (BitVec.ofNat 32 word)]) ∧
    (¬ok → (AsmLine.command m ops).events = none)
  (∀ ops, line .nop ops (ops = []) 0x00000000) ∧
  (∀ ops, line .init ops (ops = []) 0x10000000) ∧
  (∀ ops, line .tgt ops (ops = []) 0x40000000) ∧
  (∀ ops, line .check ops (ops = []) 0x60000000) ∧
  (∀ ops, line .clrerr ops (ops = []) 0x90000000) ∧
  (∀ e, line .feed [e] (e < 32) (0x20000000 + e)) ∧
  (∀ d a, line .mulx [d, a] (d < 32 ∧ a < 32) (0x30000000 + 256 * d + a)) ∧
  (∀ src n, line .unpack [src, n] (src < 7 ∧ n < 32) (0x50000000 + 256 * src + n)) ∧
  (∀ n, line .pfxb [n] (n < 65536) (0x70000000 + n)) ∧
  (∀ b, line .pfxd [b] (b < 256) (0x80000000 + b)) ∧
  (∀ m ∈ [Mnemonic.feed, .pfxb, .pfxd], ∀ ops, ops.length ≠ 1 → (AsmLine.command m ops).events = none) ∧
  (∀ m ∈ [Mnemonic.mulx, .unpack], ∀ ops, ops.length ≠ 2 → (AsmLine.command m ops).events = none) ∧
  (∀ off v, (v < 2 ^ 32 → (AsmLine.wr off v).events = some [.write .b32 off (BitVec.ofNat 32 v)]) ∧
    (2 ^ 32 ≤ v → (AsmLine.wr off v).events = none ∧ (AsmLine.rd off (some v)).events = none)) ∧
  (∀ off, (AsmLine.rd off none).events = some [.read .b32 off] ∧
    ∀ v < 2 ^ 32, (AsmLine.rd off (some v)).events = some [.read .b32 off])

/-- The pseudo-instructions expand as listed (R101) and refuse an operand outside its field's range (R100): CMD is the write
of any word to CMD, SETCFG one CFG write, LDPK four word writes, to TARGET or a GEN_SH only, RDPK four word reads, FEEDS a
FEED for each operand, PREFIX a PFXB and the bytes twice. -/
def Obligations.PseudoInstructionsExpand : Prop :=
  (∀ v, (v < 2 ^ 32 → (AsmLine.cmd v).events = some [.write .b32 0x018 (BitVec.ofNat 32 v)]) ∧
    (2 ^ 32 ≤ v → (AsmLine.cmd v).events = none)) ∧
  (∀ c p, (c < 32 ∧ p < 32 → (AsmLine.setcfg c p).events = some [.write .b32 0x008 (BitVec.ofNat 32 (256 * p + c))]) ∧
    (¬(c < 32 ∧ p < 32) → (AsmLine.setcfg c p).events = none)) ∧
  (∀ p : PackedReg,
    (∀ x : BitVec 128, p ≠ .residue → (AsmLine.ldpk p x.toNat).events = some (loadPacked p x)) ∧
    (∀ v, p = .residue ∨ 2 ^ 128 ≤ v → (AsmLine.ldpk p v).events = none) ∧
    (AsmLine.rdpk p).events = some ((List.range 4).map fun k => .read .b32 (0x040 + 16 * p.number + 4 * k))) ∧
  (∀ es : List FieldElem, es ≠ [] →
    (AsmLine.feeds (es.map BitVec.toNat)).events = some (es.map fun e => commandWrite (.feed e))) ∧
  (∀ es : List Nat, (∃ e ∈ es, 32 ≤ e) → (AsmLine.feeds es).events = none) ∧
  (∀ bytes : List Byte, bytes.length < 65536 →
    (AsmLine.prefixOf (bytes.map BitVec.toNat)).events = some ((prefixCommands bytes).map commandWrite)) ∧
  (∀ bytes : List Nat, 65536 ≤ bytes.length ∨ (∃ b ∈ bytes, 256 ≤ b) → (AsmLine.prefixOf bytes).events = none)
end

