-- ==== Sys2Proof/Laws/Ops.lean ====
section
/-! SUPPORT. What each shared operation does, bit by bit and case by case; proofs cite these and do not unfold it. -/

namespace Sys2Proof.Machine

variable {w : Nat}

/-- `raiseError` always answers a next state, the one with the error recorded. -/
theorem raiseError_eq (c : ErrorCode) (s : State) : raiseError c s = .next (s.recordError c) := rfl

/-- The bits of a slot. -/
@[simp] theorem getLsbD_unpack (v : BitVec w) (n i : Nat) :
    (unpack v n).getLsbD i = (decide (i < 5) && v.getLsbD (5 * n + i)) := by
  simp [unpack, BitVec.getLsbD_extractLsb']

@[simp] theorem getElem_unpack (v : BitVec w) (n i : Nat) (hi : i < 5) :
    (unpack v n)[i] = v.getLsbD (5 * n + i) := by
  rw [← BitVec.getLsbD_eq_getElem, getLsbD_unpack]
  simp [hi]

/-- Two slots are equal when their five bits are. -/
theorem unpack_ext {u : BitVec w} {v : BitVec w} {n m : Nat}
    (h : ∀ i < 5, u.getLsbD (5 * n + i) = v.getLsbD (5 * m + i)) : unpack u n = unpack v m := by
  ext i hi
  simp [h i hi]

/-- A slot as a number. -/
theorem toNat_unpack (v : BitVec w) (n : Nat) : (unpack v n).toNat = v.toNat / 2 ^ (5 * n) % 32 := by
  simp [unpack, BitVec.extractLsb'_toNat, Nat.shiftRight_eq_div_pow]

/-- A slot of the exclusive or of two packed values is the exclusive or of their slots. -/
@[simp] theorem unpack_xor (u v : BitVec w) (n : Nat) : unpack (u ^^^ v) n = unpack u n ^^^ unpack v n := by
  ext i hi
  simp

/-- Every slot of the zero value is zero. -/
@[simp] theorem unpack_zero (n : Nat) : unpack (0 : BitVec w) n = 0 := by
  ext i hi
  simp

/-- On a value of no bits every slot reads 0. -/
theorem unpack_null (v : BitVec 0) (n : Nat) : unpack v n = 0 := by
  have h : v = 0 := Subsingleton.elim v 0
  rw [h, unpack_zero]

/-- `mulx` at width 0 is a no-op returning 0. -/
@[simp] theorem mulx_null (v : BitVec 0) (d : Nat) (a : FieldElem) : mulx v d a = (v, 0) := by
  simp [mulx]

/-- The dropped coefficient. -/
theorem mulx_snd (hw : 0 < w) (v : BitVec w) (d : Nat) (a : FieldElem) : (mulx v d a).2 = unpack v (d - 1) := by
  simp [mulx, Nat.ne_of_gt hw]

/-- Bit `p` of the mask that zeroes slot `d - 1`. -/
theorem getLsbD_slotMask (d p : Nat) :
    (BitVec.ofNat w (0x1F <<< (5 * (d - 1)))).getLsbD p
      = (decide (p < w) && decide (5 * (d - 1) ≤ p) && decide (p < 5 * (d - 1) + 5)) := by
  have h31 : ∀ k, Nat.testBit 31 k = decide (k < 5) := by
    intro k
    rw [show (31 : Nat) = 2 ^ 5 - 1 from rfl, Nat.testBit_two_pow_sub_one]
  rw [BitVec.getLsbD_ofNat, Nat.testBit_shiftLeft, h31]
  by_cases h1 : p < w <;> by_cases h2 : 5 * (d - 1) ≤ p <;> simp [h1, h2]
  omega

/-- The bits of the shifted vector: `a` in slot 0, and above it the old bits one slot up, slot `d - 1` left out. -/
theorem getLsbD_mulx_fst (hw : 0 < w) (v : BitVec w) (d : Nat) (a : FieldElem) (p : Nat) :
    (mulx v d a).1.getLsbD p
      = (decide (p < w) &&
          if p < 5 then a.getLsbD p
          else v.getLsbD (p - 5) && !(decide (5 * (d - 1) ≤ p - 5) && decide (p - 5 < 5 * (d - 1) + 5))) := by
  have e : (mulx v d a).1
      = ((v &&& ~~~(BitVec.ofNat w (0x1F <<< (5 * (d - 1))))) <<< 5) ||| a.setWidth w := by
    simp [mulx, Nat.ne_of_gt hw]
  rw [e, BitVec.getLsbD_or, BitVec.getLsbD_shiftLeft, BitVec.getLsbD_and, BitVec.getLsbD_not, getLsbD_slotMask,
    BitVec.getLsbD_setWidth]
  by_cases h1 : p < w <;> by_cases h2 : p < 5 <;> simp [h1, h2]
  · have h3 : a.getLsbD p = false := BitVec.getLsbD_of_ge a p (by omega)
    have h4 : p - 5 < w := by omega
    simp [h3, h4]

/-- The bits of the five conditional exclusive ors. -/
theorem getLsbD_addGenerators (gen : Fin 5 → BitVec w) (m : FieldElem) (t : BitVec w) (p : Nat) :
    (addGenerators gen m t).getLsbD p
      = (t.getLsbD p ^^ (m.getLsbD 0 && (gen 0).getLsbD p) ^^ (m.getLsbD 1 && (gen 1).getLsbD p)
          ^^ (m.getLsbD 2 && (gen 2).getLsbD p) ^^ (m.getLsbD 3 && (gen 3).getLsbD p)
          ^^ (m.getLsbD 4 && (gen 4).getLsbD p)) := by
  have one : ∀ (b : Bool) (t g : BitVec w), (if b then t ^^^ g else t).getLsbD p
      = (t.getLsbD p ^^ (b && g.getLsbD p)) := by
    intro b t g
    cases b <;> simp
  simp only [addGenerators, List.foldl_cons, List.foldl_nil, one, Fin.val_zero, Fin.val_one, Fin.val_two]
  rfl

/-- A division step whose dropped coefficient is 0 is the shift alone (R132). -/
theorem addGenerators_zero (gen : Fin 5 → BitVec w) (t : BitVec w) : addGenerators gen 0 t = t := by
  simp [addGenerators]

/-- The exclusive ors act on the shifted vector from outside. -/
theorem addGenerators_eq_xor (gen : Fin 5 → BitVec w) (m : FieldElem) (t : BitVec w) :
    addGenerators gen m t = t ^^^ addGenerators gen m 0 := by
  apply BitVec.eq_of_getLsbD_eq
  intro p _
  simp only [BitVec.getLsbD_xor, getLsbD_addGenerators]
  simp

/-- The exclusive ors add up over the dropped coefficient and the vector. -/
theorem addGenerators_xor (gen : Fin 5 → BitVec w) (m n : FieldElem) (s t : BitVec w) :
    addGenerators gen (m ^^^ n) (s ^^^ t) = addGenerators gen m s ^^^ addGenerators gen n t := by
  have one : ∀ (i : Fin 5) (u v : BitVec w),
      (if (m ^^^ n).getLsbD i.val then (u ^^^ v) ^^^ gen i else u ^^^ v)
        = (if m.getLsbD i.val then u ^^^ gen i else u) ^^^ (if n.getLsbD i.val then v ^^^ gen i else v) := by
    intro i u v
    rw [BitVec.getLsbD_xor]
    cases m.getLsbD i.val <;> cases n.getLsbD i.val
    · rfl
    · exact BitVec.xor_assoc _ _ _
    · show u ^^^ v ^^^ gen i = u ^^^ gen i ^^^ v
      rw [BitVec.xor_assoc, BitVec.xor_comm v, BitVec.xor_assoc]
    · show u ^^^ v = (u ^^^ gen i) ^^^ (v ^^^ gen i)
      rw [BitVec.xor_assoc, BitVec.xor_comm v, ← BitVec.xor_assoc (gen i), BitVec.xor_self, BitVec.zero_xor]
  have all : ∀ (l : List (Fin 5)) (u v : BitVec w),
      l.foldl (fun t (i : Fin 5) => if (m ^^^ n).getLsbD i.val then t ^^^ gen i else t) (u ^^^ v)
        = l.foldl (fun t (i : Fin 5) => if m.getLsbD i.val then t ^^^ gen i else t) u
          ^^^ l.foldl (fun t (i : Fin 5) => if n.getLsbD i.val then t ^^^ gen i else t) v := by
    intro l
    induction l with
    | nil => exact fun _ _ => rfl
    | cons i l ih =>
      intro u v
      simp only [List.foldl_cons]
      rw [one, ih]
  exact all _ _ _

/-- The shift adds up over the vector and the entering element. -/
theorem mulx_fst_xor (hw : 0 < w) (u v : BitVec w) (d : Nat) (a b : FieldElem) :
    (mulx (u ^^^ v) d (a ^^^ b)).1 = (mulx u d a).1 ^^^ (mulx v d b).1 := by
  apply BitVec.eq_of_getLsbD_eq
  intro p _
  simp only [BitVec.getLsbD_xor, getLsbD_mulx_fst hw]
  split
  · cases decide (p < w) <;> simp
  · cases decide (p < w) <;> cases u.getLsbD (p - 5) <;> cases v.getLsbD (p - 5) <;> simp

/-- The division step is additive: of the exclusive ors of residues and elements it is the exclusive or of the steps. -/
theorem divStep_xor (hw : 0 < w) (gen : Fin 5 → BitVec w) (c : Nat) (u v : BitVec w) (a b : FieldElem) :
    divStep gen c (u ^^^ v) (a ^^^ b) = divStep gen c u a ^^^ divStep gen c v b := by
  simp only [divStep, mulx_fst_xor hw, ← addGenerators_xor]
  congr 1
  simp [mulx_snd hw]

/-- On a value of no bits a division step changes nothing. -/
@[simp] theorem divStep_null (gen : Fin 5 → BitVec 0) (c : Nat) (r : BitVec 0) (e : FieldElem) :
    divStep gen c r e = r :=
  Subsingleton.elim _ _

/-- Division steps with slots `k - 1` down to 0 are a fold over the list of those slots. -/
theorem divSlots_eq_foldl (gen : Fin 5 → BitVec w) (c : Nat) (v : BitVec w) (k : Nat) (r : BitVec w) :
    divSlots gen c v k r = ((List.range k).reverse.map (unpack v)).foldl (divStep gen c) r := by
  induction k generalizing r with
  | zero => rfl
  | succ k ih => simp [divSlots, ih, List.range_succ]

/-- The bits of a word of a packed register. -/
theorem getLsbD_getWord (p : BitVec w) (k i : Nat) :
    (getWord p k).getLsbD i = (decide (i < 32) && p.getLsbD (32 * k + i)) := by
  unfold getWord
  split
  · simp [BitVec.getLsbD_extractLsb']
  · rw [BitVec.getLsbD_of_ge p _ (by omega)]
    simp

/-- A word of a packed register as a number. -/
theorem toNat_getWord (p : BitVec w) (k : Nat) : (getWord p k).toNat = p.toNat / 2 ^ (32 * k) % 2 ^ 32 := by
  unfold getWord
  split
  · simp [BitVec.extractLsb'_toNat, Nat.shiftRight_eq_div_pow]
  · have : p.toNat < 2 ^ (32 * k) := lt_of_lt_of_le p.isLt (Nat.pow_le_pow_right (by omega) (by omega))
    simp [Nat.div_eq_of_lt this]

/-- The bits of a packed register with word `k` replaced. -/
theorem getLsbD_setWord (p : BitVec w) (k : Nat) (v : Word) (i : Nat) :
    (setWord p k v).getLsbD i
      = if i < w ∧ 32 * k ≤ i ∧ i < 32 * k + 32 then v.getLsbD (i - 32 * k) else p.getLsbD i := by
  unfold setWord
  split
  · have hm : ∀ j, Nat.testBit 0xFFFFFFFF j = decide (j < 32) := by
      intro j
      rw [show (0xFFFFFFFF : Nat) = 2 ^ 32 - 1 from rfl, Nat.testBit_two_pow_sub_one]
    rw [BitVec.getLsbD_or, BitVec.getLsbD_and, BitVec.getLsbD_not, BitVec.getLsbD_ofNat, Nat.testBit_shiftLeft, hm,
      BitVec.getLsbD_shiftLeft, BitVec.getLsbD_setWidth]
    by_cases h1 : i < w
    · by_cases h2 : 32 * k ≤ i
      · have h3 : ¬ i < 32 * k := by omega
        have h4 : i - 32 * k < w := by omega
        by_cases h5 : i < 32 * k + 32
        · have h6 : i - 32 * k < 32 := by omega
          simp [h1, h2, h3, h4, h5, h6]
        · have h6 : ¬ i - 32 * k < 32 := by omega
          have h7 : v.getLsbD (i - 32 * k) = false := BitVec.getLsbD_of_ge v _ (by omega)
          simp [h1, h2, h3, h4, h5, h6, h7]
      · have h3 : i < 32 * k := by omega
        simp [h1, h2, h3]
    · simp [h1, BitVec.getLsbD_of_ge p i (by omega)]
  · rw [if_neg (by omega)]

end Sys2Proof.Machine
end

