-- ==== Sys2Proof/Laws/State.lean ====
section
/-! SUPPORT. What each named update of the state leaves in each field, and the accessors through an update. -/

namespace Sys2Proof.Machine

variable (s : State)

/-! ### `State.recordError` -/

@[simp] theorem State.width_recordError (c : ErrorCode) : (s.recordError c).width = s.width := rfl
@[simp] theorem State.residue_recordError (c : ErrorCode) : (s.recordError c).residue = s.residue := rfl
@[simp] theorem State.target_recordError (c : ErrorCode) : (s.recordError c).target = s.target := rfl
@[simp] theorem State.genSh0_recordError (c : ErrorCode) : (s.recordError c).genSh0 = s.genSh0 := rfl
@[simp] theorem State.genSh1_recordError (c : ErrorCode) : (s.recordError c).genSh1 = s.genSh1 := rfl
@[simp] theorem State.genSh2_recordError (c : ErrorCode) : (s.recordError c).genSh2 = s.genSh2 := rfl
@[simp] theorem State.genSh3_recordError (c : ErrorCode) : (s.recordError c).genSh3 = s.genSh3 := rfl
@[simp] theorem State.genSh4_recordError (c : ErrorCode) : (s.recordError c).genSh4 = s.genSh4 := rfl
@[simp] theorem State.clenField_recordError (c : ErrorCode) : (s.recordError c).clenField = s.clenField := rfl
@[simp] theorem State.sep_recordError (c : ErrorCode) : (s.recordError c).sep = s.sep := rfl
@[simp] theorem State.codeLength_recordError (c : ErrorCode) : (s.recordError c).codeLength = s.codeLength := rfl
@[simp] theorem State.err_recordError (c : ErrorCode) : (s.recordError c).err = true := rfl
@[simp] theorem State.cfgOk_recordError (c : ErrorCode) : (s.recordError c).cfgOk = s.cfgOk := rfl
@[simp] theorem State.errcode_recordError (c : ErrorCode) : (s.recordError c).errcode = if s.err then s.errcode else c.code := rfl
@[simp] theorem State.result_recordError (c : ErrorCode) : (s.recordError c).result = s.result := rfl
@[simp] theorem State.phase_recordError (c : ErrorCode) : (s.recordError c).phase = s.phase := rfl
@[simp] theorem State.seqLen_recordError (c : ErrorCode) : (s.recordError c).seqLen = s.seqLen := rfl
@[simp] theorem State.seqIdx_recordError (c : ErrorCode) : (s.recordError c).seqIdx = s.seqIdx := rfl
@[simp] theorem State.pending_recordError (c : ErrorCode) : (s.recordError c).pending = s.pending := rfl
@[simp] theorem State.response_recordError (c : ErrorCode) : (s.recordError c).response = s.response := rfl
@[simp] theorem State.gen_recordError (c : ErrorCode) : (s.recordError c).gen = s.gen := rfl
@[simp] theorem State.clen_recordError (c : ErrorCode) : (s.recordError c).clen = s.clen := rfl
@[simp] theorem State.degreeOk_recordError (c : ErrorCode) (k : BitVec 5) : (s.recordError c).degreeOk k = s.degreeOk k := rfl

/-! ### `State.clearError` -/

@[simp] theorem State.width_clearError : (s.clearError).width = s.width := rfl
@[simp] theorem State.residue_clearError : (s.clearError).residue = s.residue := rfl
@[simp] theorem State.target_clearError : (s.clearError).target = s.target := rfl
@[simp] theorem State.genSh0_clearError : (s.clearError).genSh0 = s.genSh0 := rfl
@[simp] theorem State.genSh1_clearError : (s.clearError).genSh1 = s.genSh1 := rfl
@[simp] theorem State.genSh2_clearError : (s.clearError).genSh2 = s.genSh2 := rfl
@[simp] theorem State.genSh3_clearError : (s.clearError).genSh3 = s.genSh3 := rfl
@[simp] theorem State.genSh4_clearError : (s.clearError).genSh4 = s.genSh4 := rfl
@[simp] theorem State.clenField_clearError : (s.clearError).clenField = s.clenField := rfl
@[simp] theorem State.sep_clearError : (s.clearError).sep = s.sep := rfl
@[simp] theorem State.codeLength_clearError : (s.clearError).codeLength = s.codeLength := rfl
@[simp] theorem State.err_clearError : (s.clearError).err = false := rfl
@[simp] theorem State.cfgOk_clearError : (s.clearError).cfgOk = s.cfgOk := rfl
@[simp] theorem State.errcode_clearError : (s.clearError).errcode = 0 := rfl
@[simp] theorem State.result_clearError : (s.clearError).result = s.result := rfl
@[simp] theorem State.phase_clearError : (s.clearError).phase = s.phase := rfl
@[simp] theorem State.seqLen_clearError : (s.clearError).seqLen = s.seqLen := rfl
@[simp] theorem State.seqIdx_clearError : (s.clearError).seqIdx = s.seqIdx := rfl
@[simp] theorem State.pending_clearError : (s.clearError).pending = s.pending := rfl
@[simp] theorem State.response_clearError : (s.clearError).response = s.response := rfl
@[simp] theorem State.gen_clearError : (s.clearError).gen = s.gen := rfl
@[simp] theorem State.clen_clearError : (s.clearError).clen = s.clen := rfl
@[simp] theorem State.degreeOk_clearError (k : BitVec 5) : (s.clearError).degreeOk k = s.degreeOk k := rfl

/-! ### `State.setVerdict` -/

@[simp] theorem State.width_setVerdict (d : Word) : (s.setVerdict d).width = s.width := rfl
@[simp] theorem State.residue_setVerdict (d : Word) : (s.setVerdict d).residue = s.residue := rfl
@[simp] theorem State.target_setVerdict (d : Word) : (s.setVerdict d).target = s.target := rfl
@[simp] theorem State.genSh0_setVerdict (d : Word) : (s.setVerdict d).genSh0 = s.genSh0 := rfl
@[simp] theorem State.genSh1_setVerdict (d : Word) : (s.setVerdict d).genSh1 = s.genSh1 := rfl
@[simp] theorem State.genSh2_setVerdict (d : Word) : (s.setVerdict d).genSh2 = s.genSh2 := rfl
@[simp] theorem State.genSh3_setVerdict (d : Word) : (s.setVerdict d).genSh3 = s.genSh3 := rfl
@[simp] theorem State.genSh4_setVerdict (d : Word) : (s.setVerdict d).genSh4 = s.genSh4 := rfl
@[simp] theorem State.clenField_setVerdict (d : Word) : (s.setVerdict d).clenField = s.clenField := rfl
@[simp] theorem State.sep_setVerdict (d : Word) : (s.setVerdict d).sep = s.sep := rfl
@[simp] theorem State.codeLength_setVerdict (d : Word) : (s.setVerdict d).codeLength = s.codeLength := rfl
@[simp] theorem State.err_setVerdict (d : Word) : (s.setVerdict d).err = s.err := rfl
@[simp] theorem State.cfgOk_setVerdict (d : Word) : (s.setVerdict d).cfgOk = (d == 0) := rfl
@[simp] theorem State.errcode_setVerdict (d : Word) : (s.setVerdict d).errcode = s.errcode := rfl
@[simp] theorem State.result_setVerdict (d : Word) : (s.setVerdict d).result = d := rfl
@[simp] theorem State.phase_setVerdict (d : Word) : (s.setVerdict d).phase = s.phase := rfl
@[simp] theorem State.seqLen_setVerdict (d : Word) : (s.setVerdict d).seqLen = s.seqLen := rfl
@[simp] theorem State.seqIdx_setVerdict (d : Word) : (s.setVerdict d).seqIdx = s.seqIdx := rfl
@[simp] theorem State.pending_setVerdict (d : Word) : (s.setVerdict d).pending = s.pending := rfl
@[simp] theorem State.response_setVerdict (d : Word) : (s.setVerdict d).response = s.response := rfl
@[simp] theorem State.gen_setVerdict (d : Word) : (s.setVerdict d).gen = s.gen := rfl
@[simp] theorem State.clen_setVerdict (d : Word) : (s.setVerdict d).clen = s.clen := rfl
@[simp] theorem State.degreeOk_setVerdict (d : Word) (k : BitVec 5) : (s.setVerdict d).degreeOk k = s.degreeOk k := rfl

/-! ### `State.feed` -/

@[simp] theorem State.width_feed (e : FieldElem) : (s.feed e).width = s.width := rfl
@[simp] theorem State.residue_feed (e : FieldElem) : (s.feed e).residue = divStep s.gen s.clen.toNat s.residue e := rfl
@[simp] theorem State.target_feed (e : FieldElem) : (s.feed e).target = s.target := rfl
@[simp] theorem State.genSh0_feed (e : FieldElem) : (s.feed e).genSh0 = s.genSh0 := rfl
@[simp] theorem State.genSh1_feed (e : FieldElem) : (s.feed e).genSh1 = s.genSh1 := rfl
@[simp] theorem State.genSh2_feed (e : FieldElem) : (s.feed e).genSh2 = s.genSh2 := rfl
@[simp] theorem State.genSh3_feed (e : FieldElem) : (s.feed e).genSh3 = s.genSh3 := rfl
@[simp] theorem State.genSh4_feed (e : FieldElem) : (s.feed e).genSh4 = s.genSh4 := rfl
@[simp] theorem State.clenField_feed (e : FieldElem) : (s.feed e).clenField = s.clenField := rfl
@[simp] theorem State.sep_feed (e : FieldElem) : (s.feed e).sep = s.sep := rfl
@[simp] theorem State.codeLength_feed (e : FieldElem) : (s.feed e).codeLength = s.codeLength := rfl
@[simp] theorem State.err_feed (e : FieldElem) : (s.feed e).err = s.err := rfl
@[simp] theorem State.cfgOk_feed (e : FieldElem) : (s.feed e).cfgOk = s.cfgOk := rfl
@[simp] theorem State.errcode_feed (e : FieldElem) : (s.feed e).errcode = s.errcode := rfl
@[simp] theorem State.result_feed (e : FieldElem) : (s.feed e).result = s.result := rfl
@[simp] theorem State.phase_feed (e : FieldElem) : (s.feed e).phase = s.phase := rfl
@[simp] theorem State.seqLen_feed (e : FieldElem) : (s.feed e).seqLen = s.seqLen := rfl
@[simp] theorem State.seqIdx_feed (e : FieldElem) : (s.feed e).seqIdx = s.seqIdx := rfl
@[simp] theorem State.pending_feed (e : FieldElem) : (s.feed e).pending = s.pending := rfl
@[simp] theorem State.response_feed (e : FieldElem) : (s.feed e).response = s.response := rfl
@[simp] theorem State.gen_feed (e : FieldElem) : (s.feed e).gen = s.gen := rfl
@[simp] theorem State.clen_feed (e : FieldElem) : (s.feed e).clen = s.clen := rfl
@[simp] theorem State.degreeOk_feed (e : FieldElem) (k : BitVec 5) : (s.feed e).degreeOk k = s.degreeOk k := rfl

/-! ### `State.seqIdle` -/

@[simp] theorem State.width_seqIdle : (s.seqIdle).width = s.width := rfl
@[simp] theorem State.residue_seqIdle : (s.seqIdle).residue = s.residue := rfl
@[simp] theorem State.target_seqIdle : (s.seqIdle).target = s.target := rfl
@[simp] theorem State.genSh0_seqIdle : (s.seqIdle).genSh0 = s.genSh0 := rfl
@[simp] theorem State.genSh1_seqIdle : (s.seqIdle).genSh1 = s.genSh1 := rfl
@[simp] theorem State.genSh2_seqIdle : (s.seqIdle).genSh2 = s.genSh2 := rfl
@[simp] theorem State.genSh3_seqIdle : (s.seqIdle).genSh3 = s.genSh3 := rfl
@[simp] theorem State.genSh4_seqIdle : (s.seqIdle).genSh4 = s.genSh4 := rfl
@[simp] theorem State.clenField_seqIdle : (s.seqIdle).clenField = s.clenField := rfl
@[simp] theorem State.sep_seqIdle : (s.seqIdle).sep = s.sep := rfl
@[simp] theorem State.codeLength_seqIdle : (s.seqIdle).codeLength = s.codeLength := rfl
@[simp] theorem State.err_seqIdle : (s.seqIdle).err = s.err := rfl
@[simp] theorem State.cfgOk_seqIdle : (s.seqIdle).cfgOk = s.cfgOk := rfl
@[simp] theorem State.errcode_seqIdle : (s.seqIdle).errcode = s.errcode := rfl
@[simp] theorem State.result_seqIdle : (s.seqIdle).result = s.result := rfl
@[simp] theorem State.phase_seqIdle : (s.seqIdle).phase = .idle := rfl
@[simp] theorem State.seqLen_seqIdle : (s.seqIdle).seqLen = 0 := rfl
@[simp] theorem State.seqIdx_seqIdle : (s.seqIdle).seqIdx = 0 := rfl
@[simp] theorem State.pending_seqIdle : (s.seqIdle).pending = s.pending := rfl
@[simp] theorem State.response_seqIdle : (s.seqIdle).response = s.response := rfl
@[simp] theorem State.gen_seqIdle : (s.seqIdle).gen = s.gen := rfl
@[simp] theorem State.clen_seqIdle : (s.seqIdle).clen = s.clen := rfl
@[simp] theorem State.degreeOk_seqIdle (k : BitVec 5) : (s.seqIdle).degreeOk k = s.degreeOk k := rfl

/-! ### `State.setGen` -/

@[simp] theorem State.width_setGen (i : Fin 5) (v : BitVec s.width.bits) : (s.setGen i v).width = s.width := rfl
@[simp] theorem State.residue_setGen (i : Fin 5) (v : BitVec s.width.bits) : (s.setGen i v).residue = s.residue := rfl
@[simp] theorem State.target_setGen (i : Fin 5) (v : BitVec s.width.bits) : (s.setGen i v).target = s.target := rfl
@[simp] theorem State.genSh0_setGen (i : Fin 5) (v : BitVec s.width.bits) : (s.setGen i v).genSh0 = if i = 0 then v else s.genSh0 := rfl
@[simp] theorem State.genSh1_setGen (i : Fin 5) (v : BitVec s.width.bits) : (s.setGen i v).genSh1 = if i = 1 then v else s.genSh1 := rfl
@[simp] theorem State.genSh2_setGen (i : Fin 5) (v : BitVec s.width.bits) : (s.setGen i v).genSh2 = if i = 2 then v else s.genSh2 := rfl
@[simp] theorem State.genSh3_setGen (i : Fin 5) (v : BitVec s.width.bits) : (s.setGen i v).genSh3 = if i = 3 then v else s.genSh3 := rfl
@[simp] theorem State.genSh4_setGen (i : Fin 5) (v : BitVec s.width.bits) : (s.setGen i v).genSh4 = if i = 4 then v else s.genSh4 := rfl
@[simp] theorem State.clenField_setGen (i : Fin 5) (v : BitVec s.width.bits) : (s.setGen i v).clenField = s.clenField := rfl
@[simp] theorem State.sep_setGen (i : Fin 5) (v : BitVec s.width.bits) : (s.setGen i v).sep = s.sep := rfl
@[simp] theorem State.codeLength_setGen (i : Fin 5) (v : BitVec s.width.bits) : (s.setGen i v).codeLength = s.codeLength := rfl
@[simp] theorem State.err_setGen (i : Fin 5) (v : BitVec s.width.bits) : (s.setGen i v).err = s.err := rfl
@[simp] theorem State.cfgOk_setGen (i : Fin 5) (v : BitVec s.width.bits) : (s.setGen i v).cfgOk = s.cfgOk := rfl
@[simp] theorem State.errcode_setGen (i : Fin 5) (v : BitVec s.width.bits) : (s.setGen i v).errcode = s.errcode := rfl
@[simp] theorem State.result_setGen (i : Fin 5) (v : BitVec s.width.bits) : (s.setGen i v).result = s.result := rfl
@[simp] theorem State.phase_setGen (i : Fin 5) (v : BitVec s.width.bits) : (s.setGen i v).phase = s.phase := rfl
@[simp] theorem State.seqLen_setGen (i : Fin 5) (v : BitVec s.width.bits) : (s.setGen i v).seqLen = s.seqLen := rfl
@[simp] theorem State.seqIdx_setGen (i : Fin 5) (v : BitVec s.width.bits) : (s.setGen i v).seqIdx = s.seqIdx := rfl
@[simp] theorem State.pending_setGen (i : Fin 5) (v : BitVec s.width.bits) : (s.setGen i v).pending = s.pending := rfl
@[simp] theorem State.response_setGen (i : Fin 5) (v : BitVec s.width.bits) : (s.setGen i v).response = s.response := rfl
@[simp] theorem State.clen_setGen (i : Fin 5) (v : BitVec s.width.bits) : (s.setGen i v).clen = s.clen := rfl
@[simp] theorem State.degreeOk_setGen (i : Fin 5) (v : BitVec s.width.bits) (k : BitVec 5) : (s.setGen i v).degreeOk k = s.degreeOk k := rfl

/-- The generator registers after one is written. -/
@[simp] theorem State.gen_setGen (i : Fin 5) (v : BitVec s.width.bits) :
    (s.setGen i v).gen = Function.update s.gen i v := by
  funext j
  fin_cases i <;> fin_cases j <;> rfl

/-- Writing a generator register with the value it has changes nothing. -/
@[simp] theorem State.setGen_gen (i : Fin 5) : s.setGen i (s.gen i) = s := by
  obtain ⟨⟩ := s
  fin_cases i <;> rfl

/-- A generator register through its named field. -/
@[simp] theorem State.gen_zero : s.gen 0 = s.genSh0 := rfl
@[simp] theorem State.gen_one : s.gen 1 = s.genSh1 := rfl
@[simp] theorem State.gen_two : s.gen 2 = s.genSh2 := rfl
@[simp] theorem State.gen_three : s.gen 3 = s.genSh3 := rfl
@[simp] theorem State.gen_four : s.gen 4 = s.genSh4 := rfl

end Sys2Proof.Machine
end

