-- ==== Sys2Proof/Laws/Exec.lean ====
section
/-! SUPPORT. What a command can do to the state, said once; and what one event of the port can do. -/

namespace Sys2Proof.Machine

/-- The five ways a command ends. `residue` and `result` stand for whatever the command wrote there. -/
inductive Effect (s : State) : State → Prop where
  /-- The command was rejected (R173). -/
  | rejected (c : ErrorCode) : Effect s (s.recordError c)
  /-- NOP, FEED, MULX, TGT, UNPACK: at most RESIDUE and RESULT change. -/
  | value (r : BitVec s.width.bits) (x : Word) : Effect s { s with residue := r, result := x }
  /-- INIT, PFXB, PFXD: at most RESIDUE and the sequencer change, and a sensible sequencer stays sensible (R37). -/
  | sequence (r : BitVec s.width.bits) (p : Phase) (l k : BitVec 16)
      (idle : p = .idle → l = 0 ∧ k = 0)
      (busy : (s.phase ≠ .idle → s.seqIdx.toNat < s.seqLen.toNat) → p ≠ .idle → k.toNat < l.toNat) :
      Effect s { s with residue := r, phase := p, seqLen := l, seqIdx := k }
  /-- CHECK: the verdict (R123). -/
  | verdict : Effect s (s.setVerdict s.diagnostic)
  /-- CLRERR: the error record is cleared (R166). -/
  | cleared : Effect s s.clearError

/-- A 16-bit counter below another is one step from it or still below after the step. -/
theorem seqIdx_succ {k l : BitVec 16} (h : k.toNat < l.toNat) (hne : k + 1 ≠ l) : (k + 1).toNat < l.toNat := by
  have hl := l.isLt
  have hs : (k + 1).toNat = k.toNat + 1 := by
    rw [BitVec.toNat_add, show (1 : BitVec 16).toNat = 1 from rfl, Nat.mod_eq_of_lt (by omega)]
  have hd : k.toNat + 1 ≠ l.toNat := fun e => hne (BitVec.eq_of_toNat_eq (hs.trans e))
  omega

theorem execFeed_effect (e : FieldElem) (s : State) : ∃ t, execFeed e s = .next t ∧ Effect s t := by
  unfold execFeed
  split
  · exact ⟨_, rfl, .value _ _⟩
  · exact ⟨_, rfl, .rejected _⟩

theorem execMulx_effect (d a : BitVec 5) (s : State) : ∃ t, execMulx d a s = .next t ∧ Effect s t := by
  unfold execMulx
  split
  · exact ⟨_, rfl, .value _ _⟩
  · exact ⟨_, rfl, .rejected _⟩

theorem execTgt_effect (s : State) : ∃ t, execTgt s = .next t ∧ Effect s t := by
  unfold execTgt
  split
  · exact ⟨_, rfl, .value _ _⟩
  · exact ⟨_, rfl, .rejected _⟩

theorem execUnpack_effect (src : BitVec 3) (n : BitVec 5) (s : State) :
    ∃ t, execUnpack src n s = .next t ∧ Effect s t := by
  unfold execUnpack
  split
  · exact ⟨_, rfl, .rejected _⟩
  · split
    · exact ⟨_, rfl, .value _ _⟩
    · exact ⟨_, rfl, .rejected _⟩

theorem execPfxb_effect (n : BitVec 16) (s : State) : ∃ t, execPfxb n s = .next t ∧ Effect s t := by
  unfold execPfxb
  split
  · split
    · exact ⟨_, rfl, .sequence _ .idle 0 0 (fun _ => ⟨rfl, rfl⟩) (fun _ h => absurd rfl h)⟩
    · exact ⟨_, rfl, .rejected _⟩
  · rename_i hn
    refine ⟨_, rfl, .sequence s.residue .hi n 0 (fun h => by cases h) (fun _ _ => ?_)⟩
    have : n.toNat ≠ 0 := fun h => hn (BitVec.eq_of_toNat_eq h)
    simpa using Nat.pos_of_ne_zero this

theorem prefixHigh_effect (b : Byte) (s : State) (h : s.phase = .hi) : Effect s (s.prefixHigh b) := by
  refine .sequence _ _ s.seqLen _ (fun hp => by split at hp <;> cases hp) (fun hb _ => ?_)
  have hlt := hb (by simp [h])
  split
  · have h0 : (0 : BitVec 16).toNat = 0 := rfl
    omega
  · rename_i hne
    exact seqIdx_succ hlt (by simpa [State.lastOfPass] using hne)

theorem prefixLow_effect (b : Byte) (s : State) (h : s.phase = .lo) : Effect s (s.prefixLow b) := by
  refine .sequence _ _ _ _ (fun hp => ?_) (fun hb hp => ?_)
  · split at hp
    · rename_i hl
      simp [hl]
    · cases hp
  · split at hp
    · exact absurd rfl hp
    · rename_i hne
      rw [if_neg hne, if_neg hne]
      exact seqIdx_succ (hb (by simp [h])) (by simpa [State.lastOfPass] using hne)

theorem execPfxd_effect (b : Byte) (s : State) : ∃ t, execPfxd b s = .next t ∧ Effect s t := by
  unfold execPfxd
  split
  · exact ⟨_, rfl, .rejected _⟩
  · rename_i h
    split
    · exact ⟨_, rfl, prefixHigh_effect b s h⟩
    · exact ⟨_, rfl, .rejected _⟩
  · rename_i h
    split
    · exact ⟨_, rfl, prefixLow_effect b s h⟩
    · exact ⟨_, rfl, .rejected _⟩

/-- Every command ends in a next state, in one of the five ways. -/
theorem exec_effect (i : Instr) (s : State) : ∃ t, exec i s = .next t ∧ Effect s t := by
  cases i with
  | nop => exact ⟨s, rfl, .value s.residue s.result⟩
  | init => exact ⟨_, rfl, .sequence _ .idle 0 0 (fun _ => ⟨rfl, rfl⟩) (fun _ h => absurd rfl h)⟩
  | feed e => exact execFeed_effect e s
  | mulx d a => exact execMulx_effect d a s
  | tgt => exact execTgt_effect s
  | unpack src n => exact execUnpack_effect src n s
  | check => exact ⟨_, rfl, .verdict⟩
  | pfxb n => exact execPfxb_effect n s
  | pfxd b => exact execPfxd_effect b s
  | clrerr => exact ⟨_, rfl, .cleared⟩

/-- Every command word ends in a next state, in one of the same five ways. -/
theorem runCommand_effect (v : Word) (s : State) : ∃ t, runCommand v s = .next t ∧ Effect s t := by
  unfold runCommand
  split
  · exact exec_effect _ s
  · exact ⟨_, rfl, .rejected _⟩

/-- A degree within 1..WIDTH, or any degree on the null instance, passes the check. -/
theorem State.degreeOk_iff (s : State) (d : BitVec 5) :
    s.degreeOk d = true ↔ s.width.bits = 0 ∨ (1 ≤ d.toNat ∧ d.toNat ≤ s.width.slots) := by
  have h : d ≠ 0 ↔ 1 ≤ d.toNat := by
    rw [Nat.one_le_iff_ne_zero]
    exact not_congr ⟨fun h => by simp [h], fun h => BitVec.eq_of_toNat_eq (by simpa using h)⟩
  simp only [State.degreeOk, Bool.or_eq_true, decide_eq_true_eq, Bool.and_eq_true, bne_iff_ne, ne_eq]
  rw [← ne_eq, h]

/-- On the null instance every degree passes (R172). -/
theorem State.degreeOk_null {s : State} (h : s.width.bits = 0) (d : BitVec 5) : s.degreeOk d = true :=
  (s.degreeOk_iff d).mpr (.inl h)

/-- With W > 0 a degree outside 1..WIDTH fails (R172). -/
theorem State.degreeOk_false {s : State} {d : BitVec 5} (hw : 0 < s.width.bits)
    (h : d = 0 ∨ s.width.slots < d.toNat) : s.degreeOk d = false := by
  rw [Bool.eq_false_iff]
  intro hd
  rw [State.degreeOk_iff] at hd
  rcases h with rfl | h
  · simp at hd
    omega
  · omega

/-- A slot index below WIDTH, or any index on the null instance, passes the check. -/
theorem State.slotOk_iff (s : State) (n : BitVec 5) :
    s.slotOk n = true ↔ s.width.bits = 0 ∨ n.toNat < s.width.slots := by
  simp [State.slotOk]

/-- What a read delivers. -/
theorem busRead_eq (size : AccessSize) (off : Nat) (s : State) :
    busRead size off s
      = .next { s with
          response := match WindowReg.reached size off with
            | none => .busError
            | some r => .data (s.readReg r) } := by
  unfold busRead
  cases WindowReg.reached size off <;> rfl

/-- A write is a bus error, a command, or a register write. -/
theorem busWrite_cases (size : AccessSize) (off : Nat) (v : Word) (s : State) :
    (WindowReg.reached size off = none ∧ busWrite size off v s = .next { s with response := .busError }) ∨
    (WindowReg.reached size off = some .cmd ∧
      busWrite size off v s = runCommand v { s with response := .done }) ∨
    (∃ r, r ≠ .cmd ∧ WindowReg.reached size off = some r ∧
      busWrite size off v s = .next { s.writeReg r v with response := .done }) := by
  unfold busWrite
  split
  · exact .inl ⟨‹_›, rfl⟩
  · exact .inr (.inl ⟨‹_›, rfl⟩)
  · rename_i r hne h
    exact .inr (.inr ⟨r, hne, h, rfl⟩)

/-- The offsets and the width of an access that reaches CMD. -/
theorem WindowReg.reached_cmd {size : AccessSize} {off : Nat} (h : WindowReg.reached size off = some .cmd) :
    size = .b32 ∧ off = 0x018 := by
  unfold WindowReg.reached at h
  split at h
  · refine ⟨‹_›, ?_⟩
    unfold WindowReg.at at h
    split at h <;> try cases h
    · rfl
    · split at h
      · rw [Option.map_eq_some_iff] at h
        obtain ⟨_, -, hp⟩ := h
        cases hp
      · cases h
  · cases h

/-- What a step can do, case by case: nothing, reset, a read, a bus error on a write, a command, or a register write. -/
theorem step_cases {s t : State} (h : step s = .next t) :
    (s.pending = [] ∧ t = s) ∨
    ∃ e rest, s.pending = e :: rest ∧
      ((e = .resetPulse ∧ t = { State.resetOf s.width with pending := rest }) ∨
       (∃ size off r, e = .read size off ∧ t = { s with pending := rest, response := r }) ∨
       (∃ size off v, e = .write size off v ∧
         ((WindowReg.reached size off = none ∧ t = { s with pending := rest, response := .busError }) ∨
          (WindowReg.reached size off = some .cmd ∧
            runCommand v { s with pending := rest, response := .done } = .next t) ∨
          (∃ r, r ≠ .cmd ∧ WindowReg.reached size off = some r ∧
            t = { ({ s with pending := rest } : State).writeReg r v with response := .done })))) := by
  unfold step at h
  split at h
  · cases h
    exact .inl ⟨‹_›, rfl⟩
  · rename_i e rest hp
    refine .inr ⟨e, rest, hp, ?_⟩
    cases e with
    | read size off =>
      simp only [deliver, busRead_eq] at h
      cases h
      exact .inr (.inl ⟨_, _, _, rfl, rfl⟩)
    | write size off v =>
      simp only [deliver] at h
      refine .inr (.inr ⟨_, _, _, rfl, ?_⟩)
      rcases busWrite_cases size off v { s with pending := rest } with ⟨a, e⟩ | ⟨a, e⟩ | ⟨r, a, b, e⟩
      · rw [e] at h
        cases h
        exact .inl ⟨a, rfl⟩
      · rw [e] at h
        exact .inr (.inl ⟨a, h⟩)
      · rw [e] at h
        cases h
        exact .inr (.inr ⟨r, a, b, rfl⟩)
    | resetPulse =>
      cases h
      exact .inl ⟨rfl, rfl⟩
    | secondHost => cases h

/-- The commands of a list split where the list does (R137). -/
theorem execAll_append (a b : List Instr) (s t : State) (h : execAll a s = .next t) :
    execAll (a ++ b) s = execAll b t := by
  induction a generalizing s with
  | nil =>
    cases h
    rfl
  | cons i a ih =>
    obtain ⟨u, hu, -⟩ := exec_effect i s
    simp only [List.cons_append, execAll, hu] at h ⊢
    exact ih u h

end Sys2Proof.Machine
end

