-- ==== Sys2Proof/Laws/PerInstr.lean ====
section
/-! SUPPORT. Facts about every command as syntax, one lemma per constructor. -/

namespace Sys2Proof.Laws

/-- The match and mask of a command's row in spec/opcode_table.json. -/
def tableRow : Instr → Word × Word
  | .nop => (0x00000000, 0xFFFFFFFF)
  | .init => (0x10000000, 0xFFFFFFFF)
  | .feed _ => (0x20000000, 0xFFFFFFE0)
  | .mulx _ _ => (0x30000000, 0xFFFFE0E0)
  | .tgt => (0x40000000, 0xFFFFFFFF)
  | .unpack _ _ => (0x50000000, 0xFFFFF8E0)
  | .check => (0x60000000, 0xFFFFFFFF)
  | .pfxb _ => (0x70000000, 0xFFFF0000)
  | .pfxd _ => (0x80000000, 0xFFFFFF00)
  | .clrerr => (0x90000000, 0xFFFFFFFF)

/-- A word equals `m` under a mask when it does so at each of the 32 bits. -/
theorem and_eq_of_bits {x k m : Word} (h : ∀ p : Fin 32, (x.getLsbD p && k.getLsbD p) = m.getLsbD p) : x &&& k = m := by
  apply BitVec.eq_of_getLsbD_eq
  intro p hp
  rw [BitVec.getLsbD_and]
  exact h ⟨p, hp⟩

namespace RowBits

/-- A command's word has its row's fixed bits: its opcode, and 0 in every reserved bit (R90, R91). -/
def Statement (i : Instr) : Prop := encode i &&& (tableRow i).2 = (tableRow i).1

theorem nop : Statement .nop := rfl

theorem init : Statement .init := rfl

theorem feed (e : FieldElem) : Statement (.feed e) := by
  refine and_eq_of_bits fun p => ?_
  fin_cases p <;> simp [encode, tableRow]

theorem mulx (d a : BitVec 5) : Statement (.mulx d a) := by
  refine and_eq_of_bits fun p => ?_
  fin_cases p <;> simp [encode, tableRow]

theorem tgt : Statement .tgt := rfl

theorem unpack (src : BitVec 3) (n : BitVec 5) : Statement (.unpack src n) := by
  refine and_eq_of_bits fun p => ?_
  fin_cases p <;> simp [encode, tableRow]

theorem check : Statement .check := rfl

theorem pfxb (n : BitVec 16) : Statement (.pfxb n) := by
  refine and_eq_of_bits fun p => ?_
  fin_cases p <;> simp [encode, tableRow]

theorem pfxd (b : Byte) : Statement (.pfxd b) := by
  refine and_eq_of_bits fun p => ?_
  fin_cases p <;> simp [encode, tableRow]

theorem clrerr : Statement .clrerr := rfl

end RowBits

end Sys2Proof.Laws
end

