-- ==== Sys2Proof/Tests/Slice0.lean ====
section
/-! SUPPORT. The model's own tests, with values from spec/95_test_vectors.md and the rules' examples, and a witness for
every statement that has hypotheses. -/

namespace Sys2Proof.Tests

open Sys2Proof Sys2Proof.Machine

/-! ## States and helpers -/

/-- Whether an outcome is a next state with a property. -/
def after (o : Host.Outcome State Fault Refusal) (f : State → Bool) : Bool :=
  match o with
  | .next t => f t
  | .fault _ => false
  | .refused _ => false

/-- The Bech32 configuration of 95_test_vectors.md section 2.1, checked, with a given RESIDUE. -/
def bech32 (r : BitVec 32) : State :=
  { State.resetOf .w32 with
    residue := r
    target := 1#32
    genSh0 := 0x3B6A57B2#32
    genSh1 := 0x26508E6D#32
    genSh2 := 0x1EA119FA#32
    genSh3 := 0x3D4233DD#32
    genSh4 := 0x2A1462B3#32
    clenField := 6
    cfgOk := true }

/-- A state with a RESIDUE and a sequencer position. -/
def inSequence (r : BitVec 32) (p : Phase) (l k : BitVec 16) : State :=
  { bech32 r with phase := p, seqLen := l, seqIdx := k }

/-- A state with one event at the port. -/
def withEvent (s : State) (e : PortEvent) : State := { s with pending := [e] }

/-- A reset state with a RESIDUE, on a wider instance. -/
def wide64 (r : BitVec 64) : State := { State.resetOf .w64 with residue := r }

/-- A reset state with a RESIDUE, on the widest instance. -/
def wide128 (r : BitVec 128) : State := { State.resetOf .w128 with residue := r }

/-! ## WellFormed: each check refuses an ill-formed term (R100, R96) -/

theorem test_wellFormed_unpack_source_seven_refused : (Instr.unpack 7 0).wellFormed = false := by decide

theorem test_wellFormed_unpack_source_six : (Instr.unpack 6 31).wellFormed = true := by decide

theorem test_assembler_refuses_ranges :
    assembleCommand .feed [32] = none ∧ assembleCommand .mulx [32, 0] = none ∧ assembleCommand .mulx [0, 32] = none ∧
    assembleCommand .unpack [7, 0] = none ∧ assembleCommand .unpack [0, 32] = none ∧
    assembleCommand .pfxb [65536] = none ∧ assembleCommand .pfxd [256] = none ∧ assembleCommand .nop [0] = none := by
  decide

theorem test_assembler_reads_lines :
    assembleLine "UNPACK GEN0, 5 ; slot 5".toList = some [.write .b32 0x018 0x50000205] ∧
    assembleLine "PFXD 'a'".toList = some [.write .b32 0x018 0x80000061] ∧
    assembleLine "SETCFG 7, 0".toList = some [.write .b32 0x008 0x00000007] ∧
    assembleLine "rd 0x040 -> 0x00000001".toList = some [.read .b32 0x040] := by
  decide

/-! ## Decoding: words written out from the layout table (R91) -/

theorem test_decode_control : decode 0x00000000 = .ok .nop ∧ decode 0x90000000 = .ok .clrerr := by decide

theorem test_decode_engine :
    decode 0x10000000 = .ok .init ∧ decode 0x2000001F = .ok (.feed 31) ∧ decode 0x40000000 = .ok .tgt := by decide

theorem test_decode_packed_vector :
    decode 0x30001903 = .ok (.mulx 25 3) ∧ decode 0x50000605 = .ok (.unpack 6 5) := by decide

theorem test_decode_check : decode 0x60000000 = .ok .check := by decide

theorem test_decode_prefix : decode 0x7000FFFF = .ok (.pfxb 65535) ∧ decode 0x80000061 = .ok (.pfxd 0x61) := by decide

/-- 95_test_vectors.md sections 3.2, 3.5 and 3.8. -/
theorem test_decode_errors :
    decode 0xF1234567 = .error .illegalOpcode ∧ decode 0xA0000000 = .error .illegalOpcode ∧
    decode 0x00000001 = .error .reservedBits ∧ decode 0x20000020 = .error .reservedBits ∧
    decode 0x50000F00 = .error .reservedBits ∧ decode 0x90000001 = .error .reservedBits := by decide

theorem test_encode_words :
    encode (.mulx 3 5) = 0x30000305 ∧ encode (.unpack 2 5) = 0x50000205 ∧ encode (.feed 20) = 0x20000014 ∧
    encode (.pfxb 2) = 0x70000002 ∧ encode (.pfxd 0x61) = 0x80000061 := by decide

/-- The bits of a row as spec/opcode_table.json numbers them. -/
theorem test_decodeTableWord :
    decodeTableWord 32 0x50000205 = some (.unpack 2 5) ∧ decodeTableWord 32 0xA0000000 = none := by decide

/-! ## One step per command -/

/-- R165. -/
theorem test_nop : exec .nop (bech32 37) = .next (bech32 37) := rfl

/-- Section 3.5, first row, with a sequence in progress (section 3.7). -/
theorem test_init :
    after (exec .init (inSequence 0x24622766 .hi 1 0)) (fun t =>
      t.residue.toNat == 1 && t.phase == .idle && t.seqLen == 0 && t.cfgOk) = true := by decide

/-- Section 3.5: one XOR. -/
theorem test_feed_one_xor :
    after (exec (.feed 20) (bech32 0x02F84386)) (fun t => t.residue.toNat == 0x24622766) = true := by decide

/-- Section 3.5: all five XORs. -/
theorem test_feed_five_xors :
    after (exec (.feed 0) (bech32 0x3F6A57B2)) (fun t => t.residue.toNat == 0x3987670B) = true := by decide

/-- Program 1: MULX does not read CLEN. -/
theorem test_mulx_source_example :
    after (exec (.mulx 3 5) State.reset) (fun t => t.residue.toNat == 37 && t.result == 0) = true := by decide

/-- R115, W = 128: the old slot 24 enters a pad bit. -/
theorem test_mulx_pad_bit :
    after (exec (.mulx 24 3) (wide128 (1 <<< 120)))
      (fun t => t.residue.toNat == 0x20000000000000000000000000000003 && t.result == 0) = true := by decide

/-- Section 3.6, first row. -/
theorem test_tgt :
    after (exec .tgt (bech32 0x8C01)) (fun t => t.residue.toNat == 0x15CCFE9F) = true := by decide

/-- Section 3.6: with CLEN = 0 TGT is rejected. -/
theorem test_tgt_unconfigured :
    after (exec .tgt State.reset) (fun t => t.err && t.errcode == 6 && t.residue.toNat == 1) = true := by decide

/-- Section 3.2. -/
theorem test_unpack :
    after (exec (.unpack 6 5) (bech32 1)) (fun t => t.result == 21 && !t.err) = true := by decide

/-- Section 3.2: a slot that spans two words. -/
theorem test_unpack_spanning_slot :
    after (exec (.unpack 1 6) { State.resetOf .w64 with target := 0x0000000580000000#64 }) (fun t => t.result == 22) = true := by
  decide

/-- Section 3.3: GEN_SH2 with bit 17 flipped. -/
theorem test_check_fails :
    after (exec .check { bech32 1 with genSh2 := 0x1EA319FA#32 }) (fun t => !t.cfgOk && t.result == 0x40000203) = true := by
  decide

/-- Section 3.3: CLEN = 7. -/
theorem test_check_length :
    after (exec .check { bech32 1 with clenField := 7 }) (fun t => !t.cfgOk && t.result == 0x80000000) = true := by decide

/-- Section 3.7: SETCFG 6, 5; PFXB 0. -/
theorem test_pfxb_zero :
    after (exec (.pfxb 0) { bech32 1 with sep := 5 })
      (fun t => t.residue.toNat == 0x25 && t.phase == .idle && t.seqRemain == 0) = true := by decide

/-- Section 3.7: the largest count. -/
theorem test_pfxb_largest :
    after (exec (.pfxb 65535) (bech32 1)) (fun t => t.phase == .hi && t.seqRemain == 131071) = true := by decide

/-- Section 3.7, third row: the last byte of the high pass. -/
theorem test_pfxd_turns :
    after (exec (.pfxd 0x62) (inSequence 0x23 .hi 2 1)) (fun t =>
      t.residue.toNat == 0x8C60 && t.phase == .lo && t.seqIdx == 0 && t.seqRemain == 2) = true := by decide

/-- Section 3.7, last row: the last byte of the low pass. -/
theorem test_pfxd_ends :
    after (exec (.pfxd 0x62) (inSequence 0x118C01 .lo 2 1)) (fun t =>
      t.residue.toNat == 0x2318022 && t.phase == .idle && t.seqLen == 0) = true := by decide

/-- R166. -/
theorem test_clrerr :
    after (exec .clrerr { bech32 1 with err := true, errcode := 6 }) (fun t => !t.err && t.errcode == 0 && t.cfgOk) = true := by
  decide

/-! ## The port -/

/-- Section 3.9: reads after reset at W = 128. -/
theorem test_reads_after_reset :
    after (step (withEvent (State.resetOf .w128) (.read .b32 0x004))) (fun t => t.response == .data 0x05291980) = true ∧
    after (step (withEvent (State.resetOf .w128) (.read .b32 0x040))) (fun t => t.response == .data 1) = true := by decide

/-- Section 3.9: 0xFFFFFFFF written to CFG leaves CLEN = 31 and SEP = 31. -/
theorem test_write_cfg :
    after (step (withEvent (bech32 1) (.write .b32 0x008 0xFFFFFFFF))) (fun t =>
      t.readReg .cfg == 0x00001F1F && !t.cfgOk) = true := by decide

/-- Section 3.3: a write to GEN_SH0 word 1, which does not exist at W = 32, clears CFG_OK only. -/
theorem test_write_absent_word :
    after (step (withEvent (bech32 1) (.write .b32 0x064 0x1234))) (fun t =>
      !t.cfgOk && t.genSh0.toNat == 0x3B6A57B2 && t.response == .done) = true := by decide

/-- Section 3.9: misaligned and unmapped offsets. -/
theorem test_bus_errors : ∀ off ∈ [0x028, 0x03C, 0x0B0, 0x100, 0x002, 0x041],
    after (step (withEvent State.reset (.read .b32 off))) (fun t => t.response == .busError && !t.err) = true := by decide

/-- R69. -/
theorem test_byte_lanes :
    byteLane 0x44332211 0 = 0x11 ∧ byteLane 0x44332211 3 = 0x44 ∧ wordOfLanes 0x11 0x22 0x33 0x44 = 0x44332211 := by decide

/-! ## Witnesses: every statement's hypotheses can be met together, clause by clause -/

theorem witness_EncodeOfDecodeIsTheWord : decode 0x30001F1F = .ok (.mulx 31 31) := by decide

theorem witness_ReservedOpcodeRaisesIllegalOpcode :
    0xA0000000 ≤ (0xA0000000 : Word).toNat ∧ 0xA0000000 ≤ (0xFFFFFFFF : Word).toNat :=
  ⟨Nat.le_refl _, by simp⟩

theorem witness_ReservedBitRaisesReservedBits :
    ((0x20000000, 0xFFFFFFE0) : Word × Word) ∈ opcodeTable ∧
    (0x20000020 : Word) &&& 0xF0000000 = 0x20000000 ∧ (0x20000020 : Word) &&& 0xFFFFFFE0 ≠ 0x20000000 := by decide

/-- Both cases of the rule are met: a word that fits a row, and one that fits none. -/
theorem witness_EveryWordExecutesOrRaisesOneError :
    decode 0x70000000 = .ok (.pfxb 0) ∧ ∀ row ∈ opcodeTable, (0xA0000000 : Word) &&& row.2 ≠ row.1 :=
  ⟨by decide, by simp [opcodeTable]⟩

/-- The boundary values of the five ranges. -/
theorem witness_FieldsAreTheNumbersTheirBitsSpell :
    decode (BitVec.ofNat 32 (0x20000000 + 31)) = .ok (.feed 31) ∧
    decode (BitVec.ofNat 32 (0x30000000 + 256 * 31 + 31)) = .ok (.mulx 31 31) ∧
    decode (BitVec.ofNat 32 (0x50000000 + 256 * 7 + 31)) = .ok (.unpack 7 31) ∧
    decode (BitVec.ofNat 32 (0x70000000 + 65535)) = .ok (.pfxb 65535) ∧
    decode (BitVec.ofNat 32 (0x80000000 + 255)) = .ok (.pfxd 255) := by decide

theorem witness_StepRunsTheDecodedCommand :
    (withEvent (bech32 1) (.write .b32 0x018 0x20000014)).pending = .write .b32 0x018 0x20000014 :: [] ∧
    decode 0x20000014 = .ok (.feed 20) ∧ decode 0xB0000000 = .error .illegalOpcode ∧
    decode 0x10000001 = .error .reservedBits := by decide

theorem witness_PlacedWordIsTheNextCommand :
    0x90000000 < 2 ^ 32 ∧ after (step (State.reset.withFetchWord 32 0x20000020)) (fun t => t.errcode == 2) = true := by
  decide

theorem witness_OnlyWritesAndResetChangeTheBlock :
    State.reset.pending = [] ∧ (withEvent State.reset (.read .b8 3)).pending = .read .b8 3 :: [] := by decide

theorem witness_TheBlockNeverStops : (withEvent State.reset .resetPulse).pending.head? ≠ some .secondHost := by decide

theorem witness_SecondHostIsRefused : (withEvent State.reset .secondHost).pending = .secondHost :: [] := by decide

/-- A state in a prefix sequence whose thirteen clauses of registers are read one by one. -/
theorem witness_ReadsReturnTheRegisters :
    (inSequence 0x23 .hi 2 1).seqInv ∧
    (∀ off : Nat, (withEvent (inSequence 0x23 .hi 2 1) (.read .b32 off)).pending = .read .b32 off :: []) ∧
    ∀ p ∈ ([(0x000, 0x52423332), (0x004, 0x05290620), (0x008, 6), (0x00C, 0), (0x010, 6), (0x014, 0), (0x018, 0),
        (0x01C, 0), (0x020, 0x00010002), (0x024, 4), (0x040, 0x23), (0x04C, 0), (0x050, 1), (0x05C, 0),
        (0x060, 0x3B6A57B2), (0x0AC, 0)] : List (Nat × Nat)),
      after (step (withEvent (inSequence 0x23 .hi 2 1) (.read .b32 p.1)))
        (fun t => t.response == .data (BitVec.ofNat 32 p.2)) = true := by
  refine ⟨by decide, fun _ => rfl, by decide⟩

theorem witness_WritesStoreTheRegisters :
    (bech32 1).width.bits > 0 ∧ (State.resetOf .null).width.bits = 0 ∧
    (withEvent (bech32 1) (.write .b32 0x05C 7)).pending = .write .b32 (0x050 + 4 * 3) 7 :: [] ∧
    (withEvent (bech32 1) (.write .b32 0x0AC 7)).pending = .write .b32 (0x060 + 16 * 4 + 4 * 3) 7 :: [] ∧
    (withEvent (bech32 1) (.write .b32 0x060 7)).pending = .write .b32 (0x060 + 16 * 0 + 4 * 0) 7 :: [] := by decide

theorem witness_WritesToReadOnlyRegistersAreIgnored :
    (withEvent (bech32 1) (.write .b32 0x04C 5)).pending = .write .b32 0x04C 5 :: [] := by decide

/-- Illegal accesses just outside the legal ones, and the legal ones at the edges. -/
theorem witness_IllegalAccessIsABusError :
    (∀ a ∈ ([(.b16, 0x000), (.burst, 0x040), (.b32, 0x001), (.b32, 0x028), (.b32, 0x03C), (.b32, 0x0B0)] :
        List (AccessSize × Nat)),
      ¬(a.1 = .b32 ∧ a.2 % 4 = 0 ∧ (a.2 ≤ 0x024 ∨ (0x040 ≤ a.2 ∧ a.2 ≤ 0x0AC)))) ∧
    (∀ a ∈ ([(.b32, 0x000), (.b32, 0x024), (.b32, 0x040), (.b32, 0x0AC)] : List (AccessSize × Nat)),
      a.1 = .b32 ∧ a.2 % 4 = 0 ∧ (a.2 ≤ 0x024 ∨ (0x040 ≤ a.2 ∧ a.2 ≤ 0x0AC))) := by decide

theorem witness_AbsentWordsReadZeroAndIgnoreWrites :
    (State.resetOf .null).width.bits ≤ 32 * 0 ∧ (State.resetOf .w32).width.bits ≤ 32 * 1 ∧
    (State.resetOf .w64).width.bits ≤ 32 * 3 ∧
    0x040 + 16 * (PackedReg.genSh 4).number + 4 * 3 = 0x0AC := by decide

theorem witness_ResetPutsEveryElementToItsValue :
    (withEvent (inSequence 0x23 .hi 2 1) .resetPulse).pending = .resetPulse :: [] := by decide

/-- Idle after reset, and in a sequence begun after reset. -/
theorem witness_UnconfiguredBlockRejectsFeeding :
    State.reset.width.bits > 0 ∧ State.reset.clen = 0 ∧
    after (exec (.pfxb 3) State.reset) (fun t => t.clen == 0 && t.phase == .hi) = true := by decide

/-- The Bech32 configuration as the host holds it. -/
def bech32Host : HostConfig where
  clen := 6
  sep := 0
  gen := [0x3B6A57B2, 0x26508E6D, 0x1EA119FA, 0x3D4233DD, 0x2A1462B3]
  target := 1
  codeLength := 90

theorem witness_BootLoadsAndChecksTheConfiguration :
    bech32Host.gen.length = 5 ∧
    after (deliverAll (bootEvents bech32Host) State.reset) (fun t => t.cfgOk && t.target.toNat == 1) = true := by decide

theorem witness_NopChangesNothing :
    (0x00000001 : Word) &&& 0xF0000000 = 0x00000000 ∧ (0x00000001 : Word) ≠ 0x00000000 := by decide

theorem witness_ClrerrClearsTheErrorRecord :
    State.reset.errInv ∧ State.reset.err = false ∧
    (0x90000001 : Word) &&& 0xF0000000 = 0x90000000 ∧ (0x90000001 : Word) ≠ 0x90000000 := by decide

theorem witness_UnpackReadsOneSlot :
    ((0x50000F00 : Word) &&& 0xF0000000 = 0x50000000 ∧ (0x50000F00 : Word) &&& 0xFFFFF8E0 ≠ 0x50000000) ∧
    ((6 : BitVec 3) ≠ 7 ∧ (bech32 1).width.bits > 0 ∧ (bech32 1).width.slots ≤ (6 : BitVec 5).toNat) ∧
    ((6 : BitVec 3).toNat = (PackedReg.genSh 4).number ∧ (5 : BitVec 5).toNat < (bech32 1).width.slots) ∧
    (State.resetOf .null).width.bits = 0 := by decide

theorem witness_SourceFieldSelectsTheRegister :
    (5 : BitVec 5).toNat < (bech32 1).width.slots ∧ (24 : BitVec 5).toNat < (wide128 1).width.slots := by decide

theorem witness_MulxShiftsByOneSlot :
    ((0x30000020 : Word) &&& 0xF0000000 = 0x30000000 ∧ (0x30000020 : Word) &&& 0xFFFFE0E0 ≠ 0x30000000) ∧
    ((bech32 1).width.bits > 0 ∧ (bech32 1).width.slots < (7 : BitVec 5).toNat) ∧
    (State.resetOf .null).width.bits = 0 ∧
    (1 ≤ (6 : BitVec 5).toNat ∧ (6 : BitVec 5).toNat ≤ (bech32 1).width.slots) ∧
    (1 ≤ (1 : BitVec 5).toNat ∧ (1 : BitVec 5).toNat ≤ (bech32 1).width.slots) := by decide

/-- Degrees 3 and WIDTH, with the slots and pad bits above the degree clear. -/
theorem witness_MulxSlotBySlot :
    PackedWidth.w32.bits > 0 ∧ 1 ≤ 3 ∧ 3 ≤ PackedWidth.w32.slots ∧ 3 < PackedWidth.w32.slots ∧
    highClear (0x7FFF#32) 3 ∧ 6 ≤ PackedWidth.w32.slots ∧ highClear (0x3FFFFFFF#32) 6 := by decide

theorem witness_CheckReportsTheFirstFailure :
    ((0x60000001 : Word) &&& 0xF0000000 = 0x60000000 ∧ (0x60000001 : Word) ≠ 0x60000000) ∧
    (let s : State := { bech32 1 with clenField := 7 }
     s.width.slots < s.clen.toNat) ∧
    ((bech32 1).lengthCondition ∧ (bech32 1).doublingRelation) ∧
    (let s : State := { bech32 1 with genSh2 := 0x1EA319FA#32 }
     s.lengthCondition ∧ unpack (s.gen (1 : Fin 4).succ) 3 ≠ double (unpack (s.gen (1 : Fin 4).castSucc) 3) ∧
     ∀ i' : Fin 4, ∀ j' < s.width.slots, (i' < 1 ∨ (i' = 1 ∧ j' < 3)) →
       unpack (s.gen i'.succ) j' = double (unpack (s.gen i'.castSucc) j')) := by decide

theorem witness_FlippedSlotBitFailsTheCheck :
    (bech32 1).lengthCondition ∧ (bech32 1).doublingRelation ∧ 29 < 5 * (bech32 1).width.slots ∧
    5 * (bech32 1).width.slots ≤ 30 ∧ 31 < (bech32 1).width.bits := by decide

theorem witness_NoCommandReadsCfgOk : Instr.tgt ≠ .check := by decide

theorem witness_CodeLengthIsOnlyStored :
    ({ State.reset with pending := [.write .b32 0x00C 100, .read .b32 0x00C] } : State).pending
      = .write .b32 0x00C 100 :: .read .b32 0x00C :: [] := by decide

theorem witness_GeneratorTableMultipliesByFieldElements :
    (bech32 1).doublingRelation ∧ 5 < (bech32 1).width.slots := by decide

theorem witness_InitStartsANewComputation :
    (0x10000001 : Word) &&& 0xF0000000 = 0x10000000 ∧ (0x10000001 : Word) ≠ 0x10000000 := by decide

theorem witness_FeedIsOneDivisionStep :
    ((0x20000020 : Word) &&& 0xF0000000 = 0x20000000 ∧ (0x20000020 : Word) &&& 0xFFFFFFE0 ≠ 0x20000000) ∧
    (State.reset.width.bits > 0 ∧ State.reset.clen = 0) ∧
    (State.resetOf .null).width.bits = 0 ∧
    (1 ≤ (bech32 1).clen.toNat ∧ (bech32 1).clen.toNat ≤ (bech32 1).width.slots) := by decide

theorem witness_FeedAddsTheDroppedMultipleOfTheGenerator :
    (bech32 1).doublingRelation ∧ 1 ≤ (bech32 1).clen.toNat ∧ (bech32 1).clen.toNat ≤ (bech32 1).width.slots := by decide

theorem witness_TgtFeedsTheTargetSlots :
    ((0x40000001 : Word) &&& 0xF0000000 = 0x40000000 ∧ (0x40000001 : Word) ≠ 0x40000000) ∧
    (let s : State := { bech32 1 with clenField := 7 }
     s.width.bits > 0 ∧ s.width.slots < s.clen.toNat) ∧
    (State.resetOf .null).width.bits = 0 ∧
    (1 ≤ (bech32 1).clen.toNat ∧ (bech32 1).clen.toNat ≤ (bech32 1).width.slots) := by decide

theorem witness_PfxbBeginsASequence :
    ((0x70010000 : Word) &&& 0xF0000000 = 0x70000000 ∧ (0x70010000 : Word) &&& 0xFFFF0000 ≠ 0x70000000) ∧
    (65535 : BitVec 16) ≠ 0 ∧ ¬State.reset.clenLegal ∧ (bech32 1).clenLegal ∧ (State.resetOf .null).clenLegal := by decide

/-- Each position of the sequencer, before and at the last byte of a pass. -/
theorem witness_PfxdDeliversOneByte :
    ((0x80000100 : Word) &&& 0xF0000000 = 0x80000000 ∧ (0x80000100 : Word) &&& 0xFFFFFF00 ≠ 0x80000000) ∧
    (bech32 1).phase = .idle ∧
    (let s : State := { State.reset with phase := .hi, seqLen := 3 }
     s.phase ≠ .idle ∧ ¬s.clenLegal) ∧
    (bech32 1).clenLegal ∧
    ((inSequence 1 .hi 2 0).phase = .hi ∧ (inSequence 1 .hi 2 0).seqIdx + 1 ≠ (inSequence 1 .hi 2 0).seqLen) ∧
    ((inSequence 1 .hi 2 1).phase = .hi ∧ (inSequence 1 .hi 2 1).seqIdx + 1 = (inSequence 1 .hi 2 1).seqLen) ∧
    ((inSequence 1 .lo 2 0).phase = .lo ∧ (inSequence 1 .lo 2 0).seqIdx + 1 ≠ (inSequence 1 .lo 2 0).seqLen) ∧
    ((inSequence 1 .lo 2 1).phase = .lo ∧ (inSequence 1 .lo 2 1).seqIdx + 1 = (inSequence 1 .lo 2 1).seqLen) := by decide

theorem witness_PrefixDeliveryFeedsItsContribution :
    (bech32 1).clenLegal ∧ ([0x61, 0x62] : List Byte).length < 65536 ∧ ([] : List Byte).length < 65536 := by decide

theorem witness_SeqRemainCountsExactly :
    ((bech32 1).clenLegal ∧ after (exec (.pfxb 0) (bech32 1)) (fun _ => true) = true) ∧
    ((inSequence 1 .hi 2 1).seqInv ∧ (inSequence 1 .hi 2 1).clenLegal ∧ (inSequence 1 .hi 2 1).phase = .hi) ∧
    ((inSequence 1 .lo 2 1).seqInv ∧ (inSequence 1 .lo 2 1).clenLegal ∧ (inSequence 1 .lo 2 1).phase = .lo) := by decide

theorem witness_NullInstanceIsInert :
    (State.resetOf .null).width.bits = 0 ∧ after (exec .tgt (State.resetOf .null)) (fun _ => true) = true ∧
    (6 : BitVec 3) ≠ 7 := by decide

theorem witness_CommandsKeepTheirFrame : exec (.feed 20) (bech32 1) = .next ((bech32 1).feed 20) := rfl

theorem witness_OnlyTheseEventsWriteResidue :
    after (step (withEvent (bech32 1) (.write .b32 0x018 0x20000014)))
      (fun t => t.residue.toNat != (bech32 1).residue.toNat) = true := by decide

theorem witness_OnlyResetCheckAndConfigurationWritesChangeCfgOk :
    (withEvent (bech32 1) .resetPulse).pending = .resetPulse :: [] ∧
    (withEvent (bech32 1) (.write .b32 0x018 0x60000000)).pending = .write .b32 0x018 0x60000000 :: [] ∧
    ((bech32 1).lengthCondition ∧ (bech32 1).doublingRelation) ∧
    (withEvent (bech32 1) (.write .b32 0x0AC 0)).pending = .write .b32 0x0AC 0 :: [] ∧
    (0x060 ≤ 0x0AC ∧ 0x0AC ≤ 0x0AC ∧ 0x0AC % 4 = 0) ∧
    after (step (withEvent (bech32 1) (.write .b32 0x008 6))) (fun t => t.cfgOk != (bech32 1).cfgOk) = true := by decide

theorem witness_ErrorRecordIsStickyAndPrecise :
    (after (runCommand 0x30000001 State.reset) (fun t => !State.reset.err && t.err) = true) ∧
    (let s : State := { State.reset with err := true, errcode := 6 }
     after (runCommand 0x50000700 s) (fun t => t.errcode == 6) = true ∧ decode 0x50000700 ≠ .ok .clrerr ∧
     after (step (withEvent s (.write .b32 0x018 0x90000000))) (fun t => !t.err) = true) := by decide

theorem witness_ChecksOfEachCommand :
    0xA0000000 ≤ (0xA0000000 : Word).toNat ∧
    (((0x40000000, 0xFFFFFFFF) : Word × Word) ∈ opcodeTable ∧ (0x40000001 : Word) &&& 0xF0000000 = 0x40000000 ∧
      (0x40000001 : Word) &&& 0xFFFFFFFF ≠ 0x40000000) ∧
    (decode 0x40000000 = .ok .tgt ∧ (bech32 1).expectedError .tgt = 0) ∧
    (decode 0x80000061 = .ok (.pfxd 0x61) ∧ State.reset.expectedError (.pfxd 0x61) ≠ 0) :=
  ⟨Nat.le_refl _, by decide⟩

theorem witness_EveryStepKeepsTheInvariant :
    (withEvent (inSequence 0x23 .hi 2 1) (.write .b32 0x018 0x80000062)).Inv ∧
    after (step (withEvent (inSequence 0x23 .hi 2 1) (.write .b32 0x018 0x80000062)))
      (fun t => t.phase == .lo) = true :=
  ⟨⟨by decide, by decide, by decide⟩, by decide⟩

theorem witness_ResidueStaysBelowTheGeneratorDegree :
    (bech32 1).configWellFormed ∧ highClear (bech32 0x3FFFFFFF).residue (bech32 0x3FFFFFFF).clen.toNat ∧
    (∀ d a, Instr.mulx 6 5 = .mulx d a → d = (bech32 0x3FFFFFFF).clen) ∧
    after (exec (.mulx 6 5) (bech32 0x3FFFFFFF)) (fun t => t.residue.toNat == 0x3FFFFFE5) = true ∧
    ∀ d a, Instr.mulx d a ∈ [Instr.feed 31, .mulx 6 5, .tgt] → d = (bech32 1).clen := by decide

theorem witness_TargetBeyondTheDegreeIsNeverReached :
    let s : State := { bech32 1 with target := 0x80000001#32 }
    s.configWellFormed ∧ ¬highClear s.target s.clen.toNat := by decide

/-- `a12uel5l`, and the same with its last character changed (95_test_vectors.md section 2.2). -/
theorem witness_ValidCodewordsAreThoseThatReachTheTarget :
    (bech32 1).clenLegal ∧ ([0x61] : List Byte).length < 65536 ∧
    (bech32 1).validCodeword [0x61] [10, 28, 25, 31, 20, 31] ∧ ¬(bech32 1).validCodeword [0x61] [10, 28, 25, 31, 20, 27] := by
  unfold State.validCodeword
  decide

theorem witness_GeneratedChecksumVerifies :
    (bech32 1).configWellFormed ∧ highClear (bech32 1).target (bech32 1).clen.toNat ∧
    ([0x61] : List Byte).length < 65536 := by decide

/-- GF(32) as polynomials over GF(2) modulo x^5 + x^3 + 1, and a configuration that meets the premises. -/
theorem witness_ResidueIsThePolynomialRemainder :
    (∃ (K : Type) (_ : CommRing K) (α : K), (2 : K) = 0 ∧ α ^ 5 + α ^ 3 + 1 = 0 ∧ (0 : K) ≠ 1) ∧
    (bech32 1).configWellFormed ∧ (bech32 1).doublingRelation := by
  refine ⟨?_, by decide, by decide⟩
  let p : Polynomial (ZMod 2) := Polynomial.X ^ 5 + Polynomial.X ^ 3 + 1
  have hp : p.degree = 5 := by
    have : p = Polynomial.X ^ 5 + Polynomial.X ^ 3 + Polynomial.C 1 := by simp [p]
    rw [this]
    compute_degree!
  have : Nontrivial (AdjoinRoot p) := AdjoinRoot.nontrivial p (by rw [hp]; decide)
  refine ⟨AdjoinRoot p, inferInstance, AdjoinRoot.root p, ?_, ?_, zero_ne_one⟩
  · have h : (2 : ZMod 2) = 0 := by decide
    have h2 := congrArg (AdjoinRoot.of p) h
    rwa [map_ofNat, map_zero] at h2
  · have h := AdjoinRoot.eval₂_root p
    simpa [p] using h

/-- Each operand's last legal value and its first refused one. -/
theorem witness_AssemblerRefusesOutOfRangeOperands :
    (31 < 32 ∧ ¬32 < 32) ∧ (6 < 7 ∧ ¬7 < 7) ∧ (65535 < 65536 ∧ ¬65536 < 65536) ∧ (255 < 256 ∧ ¬256 < 256) ∧
    ([] : List Nat).length ≠ 1 ∧ [1, 2].length ≠ 1 ∧ [1].length ≠ 2 ∧ ([0] : List Nat) ≠ [] ∧
    (2 ^ 32 - 1 < 2 ^ 32 ∧ 2 ^ 32 ≤ 2 ^ 32) := by decide

theorem witness_PseudoInstructionsExpand :
    (2 ^ 32 - 1 < 2 ^ 32 ∧ 2 ^ 32 ≤ 2 ^ 32) ∧ (31 < 32 ∧ 31 < 32 ∧ ¬(6 < 32 ∧ 32 < 32)) ∧
    (PackedReg.target ≠ .residue ∧ 2 ^ 128 ≤ 2 ^ 128) ∧ ([31, 0] : List FieldElem) ≠ [] ∧
    (∃ e ∈ [0, 32], 32 ≤ e) ∧ ([0x61, 0x62] : List Byte).length < 65536 ∧ (∃ b ∈ [0x61, 256], 256 ≤ b) ∧
    65536 ≤ (List.replicate 65536 0).length := by
  refine ⟨by decide, by decide, by decide, by decide, by decide, by decide, by decide, ?_⟩
  rw [List.length_replicate]

end Sys2Proof.Tests
end

section
/-! SUPPORT. What one step does, by what stands first in the port's queue; and that without a write or reset the block
keeps its state (R17, R70). -/

namespace Sys2Proof.Machine

/-- The block has no autonomous activity (R17, log 2). -/
theorem step_of_pending_nil {s : State} (h : s.pending = []) : step s = .next s := by
  simp only [step, h]

/-- The oldest event leaves the queue and is delivered whole (R73). -/
theorem step_of_pending_cons {s : State} {e : PortEvent} {rest : List PortEvent} (h : s.pending = e :: rest) :
    step s = deliver e { s with pending := rest } := by
  simp only [step, h]

/-- A read answers a word or a bus error, and has no side effect (R64, R70). -/
theorem deliver_read_frame (size : AccessSize) (off : Nat) (s : State) :
    ∃ r, deliver (.read size off) s = .next { s with response := r } :=
  ⟨_, busRead_eq size off s⟩

/-- Settles O10: an idle step delivers nothing, and a read, legal or not, writes only the port's answer. -/
theorem onlyWritesAndResetChangeTheBlock : Obligations.OnlyWritesAndResetChangeTheBlock := by
  refine ⟨fun s hidle => step_of_pending_nil hidle, fun s size off rest hread => ?_⟩
  obtain ⟨r, hr⟩ := deliver_read_frame size off { s with pending := rest }
  exact ⟨r, (step_of_pending_cons hread).trans hr⟩

end Sys2Proof.Machine
end

section
/-! SUPPORT. A command is its checks, then its pseudocode (R172): which error it raises, and what it writes when it raises
none. The frames and noninterference facts below are read off these two functions. -/

namespace Sys2Proof.Machine

/-- The error a command raises, the checks in the order of R174; none when they all pass. -/
def State.failure (s : State) : Instr → Option ErrorCode
  | .nop | .init | .check | .clrerr => none
  | .feed _ | .tgt => if s.degreeOk s.clen then none else some .degreeRange
  | .mulx d _ => if s.degreeOk d then none else some .degreeRange
  | .unpack src n =>
    match PackedReg.ofNumber src.toNat with
    | none => some .badSource
    | some _ => if s.slotOk n then none else some .slotRange
  | .pfxb n => if n = 0 then if s.degreeOk s.clen then none else some .degreeRange else none
  | .pfxd _ => if s.phase = .idle then some .seqState else if s.degreeOk s.clen then none else some .degreeRange

/-- The state a command's pseudocode leaves, its checks passed; at an operand they refuse, the value is a convention. -/
def State.perform (s : State) : Instr → State
  | .nop => s
  | .init => { s.seqIdle with residue := 1#s.width.bits }
  | .feed e => s.feed e
  | .mulx d a =>
    { s with residue := (mulx s.residue d.toNat a).1, result := (mulx s.residue d.toNat a).2.setWidth 32 }
  | .tgt => { s with residue := divSlots s.gen s.clen.toNat s.target s.clen.toNat s.residue }
  | .unpack src n =>
    { s with result := ((PackedReg.ofNumber src.toNat).elim 0 fun p => unpack (s.packed p) n.toNat).setWidth 32 }
  | .check => s.setVerdict s.diagnostic
  | .pfxb n => if n = 0 then (s.feed s.sep).seqIdle else { s with phase := .hi, seqLen := n, seqIdx := 0 }
  | .pfxd b => if s.phase = .lo then s.prefixLow b else s.prefixHigh b
  | .clrerr => s.clearError

/-- Every command is rejected with its failure, or performed (R170, R172). -/
theorem exec_eq (i : Instr) (s : State) :
    exec i s = .next (match s.failure i with | some c => s.recordError c | none => s.perform i) := by
  cases i with
  | nop | init | check | clrerr => rfl
  | feed e =>
    simp only [exec, execFeed, State.failure]
    split <;> rfl
  | tgt =>
    simp only [exec, execTgt, State.failure]
    split <;> rfl
  | mulx d a =>
    simp only [exec, execMulx, State.failure]
    split <;> rfl
  | unpack src n =>
    simp only [exec, execUnpack, State.failure, State.perform]
    cases PackedReg.ofNumber src.toNat with
    | none => rfl
    | some p => cases s.slotOk n <;> rfl
  | pfxb n =>
    simp only [exec, execPfxb, State.failure, State.perform]
    by_cases hn : n = 0
    · simp only [hn, if_true]
      split <;> rfl
    · simp only [hn, if_false]
  | pfxd b =>
    simp only [exec, execPfxd, State.failure, State.perform]
    cases s.phase with
    | idle => rfl
    | hi | lo => cases s.degreeOk s.clen <;> rfl

/-- PFXB of a positive count writes the sequencer alone (R152). -/
theorem State.perform_pfxb (s : State) {n : BitVec 16} (hn : n ≠ 0) :
    s.perform (.pfxb n) = { s with phase := .hi, seqLen := n, seqIdx := 0 } :=
  if_neg hn

/-- A command whose checks fail is rejected (R170, R173). -/
theorem exec_of_failure {i : Instr} {s : State} {c : ErrorCode} (h : s.failure i = some c) :
    exec i s = .next (s.rejected c.code) := by
  rw [exec_eq, h]
  rfl

/-- A command leaves an error recorded, or what its pseudocode writes. -/
theorem exec_cases {i : Instr} {s t : State} (h : exec i s = .next t) :
    (∃ c, t = s.recordError c) ∨ t = s.perform i := by
  rw [exec_eq] at h
  cases hf : s.failure i with
  | none => exact .inr (by simpa [hf] using h.symm)
  | some c => exact .inl ⟨c, by simpa [hf] using h.symm⟩

/-- What a word written to CMD leaves: an error recorded, or the command it decodes to performed. -/
theorem runCommand_cases {v : Word} {s t : State} (h : runCommand v s = .next t) :
    (∃ c, t = s.recordError c) ∨ ∃ i, decode v = .ok i ∧ t = s.perform i := by
  unfold runCommand at h
  split at h
  · exact (exec_cases h).imp_right fun ht => ⟨_, ‹_›, ht⟩
  · cases h
    exact .inl ⟨_, rfl⟩

/-- The codes of R171 are 1 to 6. -/
theorem ErrorCode.code_range (c : ErrorCode) : 1 ≤ c.code.toNat ∧ c.code.toNat ≤ 6 := by
  cases c <;> decide

/-! ### What a performed command writes -/

section
variable (s : State) {i : Instr}

/-- RESULT is written by MULX, UNPACK and CHECK alone (R36). -/
theorem State.result_perform (hm : ∀ d a, i ≠ .mulx d a) (hu : ∀ src n, i ≠ .unpack src n) (hc : i ≠ .check) :
    (s.perform i).result = s.result := by
  cases i with
  | nop | init | feed | tgt | clrerr => rfl
  | mulx d a => exact absurd rfl (hm d a)
  | unpack src n => exact absurd rfl (hu src n)
  | check => exact absurd rfl hc
  | pfxb | pfxd =>
    simp only [State.perform]
    split <;> rfl

/-- CFG_OK is written by CHECK alone (R34). -/
theorem State.cfgOk_perform (hc : i ≠ .check) : (s.perform i).cfgOk = s.cfgOk := by
  cases i with
  | nop | init | feed | mulx | tgt | unpack | clrerr => rfl
  | check => exact absurd rfl hc
  | pfxb | pfxd =>
    simp only [State.perform]
    split <;> rfl

/-- The sequencer is moved by INIT, PFXB and PFXD alone (R156). -/
theorem State.sequencer_perform (hi : i ≠ .init) (hb : ∀ n, i ≠ .pfxb n) (hd : ∀ b, i ≠ .pfxd b) :
    (s.perform i).phase = s.phase ∧ (s.perform i).seqLen = s.seqLen ∧ (s.perform i).seqIdx = s.seqIdx := by
  cases i with
  | nop | feed | mulx | tgt | unpack | check | clrerr => exact ⟨rfl, rfl, rfl⟩
  | init => exact absurd rfl hi
  | pfxb n => exact absurd rfl (hb n)
  | pfxd b => exact absurd rfl (hd b)

/-- RESIDUE is written by INIT, FEED, MULX, TGT, PFXB 0 and PFXD alone (R22). -/
theorem State.residue_perform (hi : i ≠ .init) (hf : ∀ e, i ≠ .feed e) (hm : ∀ d a, i ≠ .mulx d a) (ht : i ≠ .tgt)
    (hb : i ≠ .pfxb 0) (hd : ∀ b, i ≠ .pfxd b) : (s.perform i).residue.toNat = s.residue.toNat := by
  cases i with
  | nop | unpack | check | clrerr => rfl
  | init => exact absurd rfl hi
  | feed e => exact absurd rfl (hf e)
  | mulx d a => exact absurd rfl (hm d a)
  | tgt => exact absurd rfl ht
  | pfxb n =>
    have hn : n ≠ 0 := fun h => hb (h ▸ rfl)
    rw [s.perform_pfxb hn]
  | pfxd b => exact absurd rfl (hd b)

/-- The error record is written by no performed command but CLRERR (R173). -/
theorem State.errorRecord_perform (hc : i ≠ .clrerr) :
    (s.perform i).err = s.err ∧ (s.perform i).errcode = s.errcode := by
  cases i with
  | nop | init | feed | mulx | tgt | unpack | check => exact ⟨rfl, rfl⟩
  | clrerr => exact absurd rfl hc
  | pfxb | pfxd =>
    simp only [State.perform]
    split <;> exact ⟨rfl, rfl⟩

end

/-- Settles O44: the configuration and the port by the five ways a command ends, the rest by what each command writes. -/
theorem commandsKeepTheirFrame : Obligations.CommandsKeepTheirFrame := by
  intro i s t h
  have hconfig : t.width = s.width ∧ t.target.toNat = s.target.toNat ∧ (∀ j, (t.gen j).toNat = (s.gen j).toNat) ∧
      t.clenField = s.clenField ∧ t.sep = s.sep ∧ t.codeLength = s.codeLength ∧ t.pending = s.pending ∧
      t.response = s.response := by
    obtain ⟨u, hu, he⟩ := exec_effect i s
    cases h.symm.trans hu
    cases he <;> exact ⟨rfl, rfl, fun _ => rfl, rfl, rfl, rfl, rfl, rfl⟩
  obtain ⟨hw, htarget, hgen, hclen, hsep, hcode, hpending, hresponse⟩ := hconfig
  refine ⟨hw, htarget, hgen, hclen, hsep, hcode, hpending, hresponse, ?_⟩
  rcases exec_cases h with ⟨c, rfl⟩ | rfl
  · exact ⟨fun _ _ _ => rfl, fun _ => rfl, fun _ _ _ => ⟨rfl, rfl, rfl⟩, fun _ _ _ _ _ _ => rfl⟩
  · exact ⟨s.result_perform, s.cfgOk_perform, s.sequencer_perform, s.residue_perform⟩

/-! ### What no command reads -/

/-- The state with another CODE_LENGTH (R31): a write to the register, or the other value a command must not notice. -/
def State.setCodeLength (s : State) (x : Word) : State := { s with codeLength := x }

/-- The checks of a command do not read CODE_LENGTH (R31). -/
theorem State.failure_setCodeLength (s : State) (x : Word) (i : Instr) :
    (s.setCodeLength x).failure i = s.failure i := by
  cases i <;> rfl

/-- The pseudocode of a command does not read CODE_LENGTH, and keeps it (R31). -/
theorem State.perform_setCodeLength (s : State) (x : Word) (i : Instr) :
    (s.setCodeLength x).perform i = (s.perform i).setCodeLength x := by
  cases i with
  | nop | init | feed | mulx | tgt | unpack | check | clrerr => rfl
  | pfxb | pfxd =>
    simp only [State.perform, apply_ite (fun t : State => t.setCodeLength x)]
    rfl

/-- A command run with another CODE_LENGTH ends as without, but for that value (R31). -/
theorem exec_setCodeLength (i : Instr) (s : State) (x : Word) :
    exec i (s.setCodeLength x) = mapNext (·.setCodeLength x) (exec i s) := by
  rw [exec_eq, exec_eq, s.failure_setCodeLength, s.perform_setCodeLength]
  cases s.failure i <;> rfl

/-- The checks of a command do not read the error record (R33). -/
theorem State.failure_clearError (s : State) (i : Instr) : s.clearError.failure i = s.failure i := by
  cases i <;> rfl

/-- The pseudocode of a command does not read the error record (R33). -/
theorem State.perform_clearError (s : State) (i : Instr) : s.clearError.perform i = (s.perform i).clearError := by
  cases i with
  | nop | init | feed | mulx | tgt | unpack | check | clrerr => rfl
  | pfxb | pfxd =>
    simp only [State.perform, apply_ite State.clearError]
    rfl

/-- A command run with the error record cleared first ends as without, but for the record. -/
theorem exec_clearError (i : Instr) (s : State) :
    mapNext State.clearError (exec i s.clearError) = mapNext State.clearError (exec i s) := by
  rw [exec_eq, exec_eq, s.failure_clearError, s.perform_clearError]
  cases s.failure i <;> rfl

/-- Settles O48: both runs are the run with the record cleared first. -/
theorem errorRecordInfluencesNoCommand : Obligations.ErrorRecordInfluencesNoCommand := fun i s e c =>
  (exec_clearError i { s with err := e, errcode := c }).symm.trans (exec_clearError i s)

/-! ### The unconfigured block -/

/-- Settles O20: each of the commands fails its check, PFXD the one of the sequencer first. -/
theorem unconfiguredBlockRejectsFeeding : Obligations.UnconfiguredBlockRejectsFeeding := by
  intro s hw hc
  have hdeg : s.degreeOk s.clen = false := State.degreeOk_false hw (.inl hc)
  refine ⟨fun e => exec_of_failure (c := .degreeRange) ?_, exec_of_failure (c := .degreeRange) ?_,
    exec_of_failure (c := .degreeRange) ?_, fun b => ?_⟩
  · simp [State.failure, hdeg]
  · simp [State.failure, hdeg]
  · simp [State.failure, hdeg]
  · by_cases hp : s.phase = .idle
    · rw [if_pos hp]
      exact exec_of_failure (c := .seqState) (by simp [State.failure, hp])
    · rw [if_neg hp]
      exact exec_of_failure (c := .degreeRange) (by simp [State.failure, hp, hdeg])

end Sys2Proof.Machine
end

section
/-! SUPPORT. Which register an offset reaches (R61), and what one event of the port does: the word a read returns (R79), the
command a write to CMD runs, and what a write to another register leaves alone. -/

namespace Sys2Proof.Machine

/-! ### The register an offset reaches -/

/-- Word `k` of a packed register stands at its number's row of the window (R61, R67). -/
theorem WindowReg.at_packedWord (p : PackedReg) {k : Nat} (hk : k < 4) :
    WindowReg.at (0x040 + 16 * p.number + 4 * k) = some (.packedWord p k) := by
  cases p with
  | residue | target => interval_cases k <;> rfl
  | genSh i => fin_cases i <;> interval_cases k <;> rfl

/-- A word of the packed registers is found at no offset below them and at no misaligned one. -/
theorem WindowReg.at_eq_packedWord {off k : Nat} {p : PackedReg} (h : WindowReg.at off = some (.packedWord p k)) :
    off % 4 = 0 ∧ 0x040 ≤ off ∧ PackedReg.ofNumber ((off - 0x040) / 16) = some p := by
  unfold WindowReg.at at h
  split at h
  case h_11 =>
    split at h
    · rename_i hoff
      obtain ⟨q, hq, hp⟩ := Option.map_eq_some_iff.mp h
      cases hp
      exact ⟨hoff.1, hoff.2, hq⟩
    · cases h
  all_goals cases h

/-- The register with number `n` is GEN_SH`i` for `n = 2 + i` alone (R96). -/
theorem PackedReg.ofNumber_eq_genSh {n : Nat} {i : Fin 5} (h : PackedReg.ofNumber n = some (.genSh i)) :
    n = 2 + i.val := by
  unfold PackedReg.ofNumber at h
  split at h <;> cases h <;> rfl

/-- The words of the GEN_SH registers fill the offsets 0x060 to 0x0AC (R61). -/
theorem WindowReg.offset_of_genSh {off k : Nat} {i : Fin 5} (h : WindowReg.at off = some (.packedWord (.genSh i) k)) :
    0x060 ≤ off ∧ off ≤ 0x0AC ∧ off % 4 = 0 := by
  obtain ⟨halign, hlow, hreg⟩ := WindowReg.at_eq_packedWord h
  have hnum := PackedReg.ofNumber_eq_genSh hreg
  omega

/-- An aligned offset from 0x060 to 0x0AC is one of a GEN_SH word (R61). -/
theorem WindowReg.at_genSh {off : Nat} (hlow : 0x060 ≤ off) (hhigh : off ≤ 0x0AC) (halign : off % 4 = 0) :
    ∃ i k, WindowReg.at off = some (.packedWord (.genSh i) k) := by
  let i : Fin 5 := ⟨(off - 0x060) / 16, by omega⟩
  have hk : off / 4 % 4 < 4 := Nat.mod_lt _ (by decide)
  have hoff : off = 0x040 + 16 * (PackedReg.genSh i).number + 4 * (off / 4 % 4) := by
    simp only [PackedReg.number, i]
    omega
  exact ⟨i, off / 4 % 4, (congrArg WindowReg.at hoff).trans (WindowReg.at_packedWord (.genSh i) hk)⟩

/-- CFG is found at offset 0x008 alone (R61). -/
theorem WindowReg.offset_of_cfg {off : Nat} (h : WindowReg.at off = some .cfg) : off = 0x008 := by
  unfold WindowReg.at at h
  split at h
  case h_3 => rfl
  case h_11 =>
    split at h
    · obtain ⟨_, -, hp⟩ := Option.map_eq_some_iff.mp h
      cases hp
    · cases h
  all_goals cases h

/-- Only a 32-bit access reaches a register (R62). -/
theorem WindowReg.reached_eq_some {size : AccessSize} {off : Nat} {r : WindowReg}
    (h : WindowReg.reached size off = some r) : size = .b32 ∧ WindowReg.at off = some r := by
  unfold WindowReg.reached at h
  split at h
  · exact ⟨‹_›, h⟩
  · cases h

/-! ### What a write to a register leaves -/

section
variable (s : State) (r : WindowReg) (v : Word)

/-- RESIDUE is read-only in the window (R22, R66). -/
theorem State.residue_writeReg : (s.writeReg r v).residue.toNat = s.residue.toNat := by
  unfold State.writeReg
  split <;> rfl

/-- No register write touches the error record (R33, R66). -/
theorem State.err_writeReg : (s.writeReg r v).err = s.err := by
  unfold State.writeReg
  split <;> rfl

/-- A register write clears CFG_OK, and goes to CFG or to a GEN_SH word, or keeps CFG_OK (R34). -/
theorem State.cfgOk_writeReg :
    ((r = .cfg ∨ ∃ i k, r = .packedWord (.genSh i) k) ∧ (s.writeReg r v).cfgOk = false) ∨
    (s.writeReg r v).cfgOk = s.cfgOk := by
  cases r with
  | cfg => exact .inl ⟨.inl rfl, rfl⟩
  | packedWord p k =>
    cases p with
    | genSh i => exact .inl ⟨.inr ⟨i, k, rfl⟩, rfl⟩
    | residue | target => exact .inr rfl
  | id | param | codeLength | status | errcode | cmd | result | seqCnt | seqRemain => exact .inr rfl

end

/-! ### One step -/

section
variable {s : State} {off : Nat} {v : Word} {rest : List PortEvent}

/-- A reset pulse puts every element to its value and keeps the events behind it (R190). -/
theorem step_reset (h : s.pending = .resetPulse :: rest) :
    step s = .next { State.resetOf s.width with pending := rest } :=
  step_of_pending_cons h

/-- A read of a mapped register answers its word (R79). -/
theorem step_read {r : WindowReg} (h : s.pending = .read .b32 off :: rest) (hr : WindowReg.at off = some r) :
    step s = .next { s with pending := rest, response := .data (s.readReg r) } := by
  rw [step_of_pending_cons h]
  simp only [deliver, busRead, WindowReg.reached, if_true, hr]
  rfl

/-- A word written to CMD runs (R79, R99). -/
theorem step_command (h : s.pending = .write .b32 0x018 v :: rest) :
    step s = runCommand v { s with pending := rest, response := .done } :=
  step_of_pending_cons h

/-- A write to a mapped register other than CMD stores (R79). -/
theorem step_write {r : WindowReg} (h : s.pending = .write .b32 off v :: rest) (hr : WindowReg.at off = some r)
    (hcmd : r ≠ .cmd) :
    step s = .next { ({ s with pending := rest } : State).writeReg r v with response := .done } := by
  rw [step_of_pending_cons h]
  simp only [deliver, busWrite, WindowReg.reached, if_true, hr]

end

/-! ### The words of CHECK and CLRERR -/

/-- A word decodes to the command its opcode names, if no reserved bit is set (R95, R99). -/
theorem commandOf_of_decode {v : Word} {i : Instr} (h : decode v = .ok i) :
    commandOf v = some i ∧ operandBits v &&& ~~~(fieldMask (opcOf v)) = 0 := by
  unfold decode at h
  split at h
  · cases h
  · rename_i hcmd
    split at h
    · cases h
      exact ⟨hcmd, ‹_›⟩
    · cases h

/-- The opcode of a word is the one in its command's row of the table (R91). -/
theorem opcOf_of_commandOf {v : Word} {i : Instr} (h : commandOf v = some i) :
    opcOf v = opcOf (Laws.tableRow i).1 := by
  unfold commandOf at h
  apply BitVec.eq_of_toNat_eq
  split at h <;> cases h <;> simp only [Laws.tableRow] <;> assumption

/-- A command without operands has the one word of its row: its bits below the opcode are all reserved (R95). -/
theorem word_of_decode {v : Word} {i : Instr} (hi : i = .check ∨ i = .clrerr) (h : decode v = .ok i) :
    v = (Laws.tableRow i).1 := by
  obtain ⟨hcmd, hreserved⟩ := commandOf_of_decode h
  have hopc : opcOf v = opcOf (Laws.tableRow i).1 := opcOf_of_commandOf hcmd
  have hmask : ~~~(fieldMask (opcOf v)) = BitVec.allOnes 28 := by
    rw [hopc]
    rcases hi with rfl | rfl <;> rfl
  have hbits : operandBits v = 0 := by
    rwa [hmask, BitVec.and_allOnes] at hreserved
  calc v = opcOf v ++ operandBits v := by
        rw [opcOf, operandBits, BitVec.extractLsb'_append_extractLsb'_eq_extractLsb' (by rfl)]
        exact BitVec.extractLsb'_eq_self.symm
    _ = opcOf (Laws.tableRow i).1 ++ (0 : BitVec 28) := by rw [hopc, hbits]
    _ = (Laws.tableRow i).1 := by rcases hi with rfl | rfl <;> rfl

/-! ### Where RESIDUE, CFG_OK and ERR change -/

/-- What is read off the block and not off its port changes by reset, a command or a register write alone (R17, R64, R70). -/
theorem step_change {α : Type*} (f : State → α) (hport : ∀ s q r, f { s with pending := q, response := r } = f s)
    {s t : State} (hstep : step s = .next t) (hne : f t ≠ f s) :
    s.pending.head? = some .resetPulse ∨
    (∃ v u, s.pending.head? = some (.write .b32 0x018 v) ∧ f u = f s ∧ runCommand v u = .next t) ∨
    (∃ off v r u, s.pending.head? = some (.write .b32 off v) ∧ WindowReg.at off = some r ∧ f u = f s ∧
      f t = f (u.writeReg r v)) := by
  rcases step_cases hstep with ⟨-, rfl⟩ | ⟨e, rest, hp, hev⟩
  · exact absurd rfl hne
  rw [hp]
  rcases hev with ⟨rfl, -⟩ | ⟨size, off, r, -, rfl⟩ | ⟨size, off, v, rfl, hw⟩
  · exact .inl rfl
  · exact absurd (hport s _ _) hne
  rcases hw with ⟨-, rfl⟩ | ⟨hcmd, hrun⟩ | ⟨r, -, hr, rfl⟩
  · exact absurd (hport s _ _) hne
  · obtain ⟨rfl, rfl⟩ := WindowReg.reached_cmd hcmd
    exact .inr (.inl ⟨v, _, rfl, hport s _ _, hrun⟩)
  · obtain ⟨rfl, hat⟩ := WindowReg.reached_eq_some hr
    exact .inr (.inr ⟨off, v, r, { s with pending := rest }, rfl, hat, hport s rest s.response, hport _ _ _⟩)

/-- Settles O45: a register write keeps RESIDUE, and of the commands those that R22 lists write it. -/
theorem onlyTheseEventsWriteResidue : Obligations.OnlyTheseEventsWriteResidue := by
  intro s t hstep hne
  rcases step_change (fun s => s.residue.toNat) (fun _ _ _ => rfl) hstep hne with
    hreset | ⟨v, u, hhead, hu, hrun⟩ | ⟨off, v, r, u, -, -, hu, ht⟩
  · exact .inl hreset
  · rw [← hu] at hne
    rcases runCommand_cases hrun with ⟨c, rfl⟩ | ⟨i, hdec, rfl⟩
    · exact absurd rfl hne
    · refine .inr ⟨v, i, hhead, hdec, ?_⟩
      by_contra hi
      push Not at hi
      obtain ⟨hinit, hfeed, htgt, hmulx, hpfxb, hpfxd⟩ := hi
      exact hne (u.residue_perform hinit hfeed hmulx htgt hpfxb hpfxd)
  · exact absurd (ht.trans ((u.residue_writeReg r v).trans hu)) hne

/-- Settles O47: only a rejection sets ERR, only CLRERR of the commands clears the record, and CLRERR has one word. -/
theorem errorRecordIsStickyAndPrecise : Obligations.ErrorRecordIsStickyAndPrecise := by
  refine ⟨fun v s t hrun hs ht => ?_, fun v s t hrun hs hclr => ?_, fun s t hstep hs ht => ?_⟩
  · rcases runCommand_cases hrun with ⟨c, rfl⟩ | ⟨i, -, rfl⟩
    · have hcode : (s.recordError c).errcode = c.code := by simp [hs]
      rw [hcode]
      exact ⟨by simp [State.recordError, hs], c.code_range⟩
    · by_cases hi : i = .clrerr
      · subst hi
        cases ht
      · rw [(s.errorRecord_perform hi).1, hs] at ht
        cases ht
  · rcases runCommand_cases hrun with ⟨c, rfl⟩ | ⟨i, hdec, rfl⟩
    · exact ⟨rfl, by simp [hs]⟩
    · have hi : i ≠ .clrerr := fun h => hclr (h ▸ hdec)
      obtain ⟨herr, hcode⟩ := s.errorRecord_perform hi
      exact ⟨herr.trans hs, hcode⟩
  · rcases step_change State.err (fun _ _ _ => rfl) hstep (by simp [hs, ht]) with
      hreset | ⟨v, u, hhead, hu, hrun⟩ | ⟨off, v, r, u, -, -, hu, htu⟩
    · exact .inl hreset
    · right
      rcases runCommand_cases hrun with ⟨c, rfl⟩ | ⟨i, hdec, rfl⟩
      · cases ht
      · by_cases hi : i = .clrerr
        · rw [hhead, word_of_decode (.inr hi) hdec, hi]
          rfl
        · rw [(u.errorRecord_perform hi).1, hu, hs] at ht
          cases ht
    · rw [htu, u.err_writeReg, hu, hs] at ht
      cases ht

end Sys2Proof.Machine
end

section
/-! SUPPORT. What CFG_OK = 1 means (R34, R123), and the invariant of every step (R35, R37, R171). -/

namespace Sys2Proof.Machine

/-! ### CHECK's verdict -/

/-- The failure words of the doubling relation are not 0 (R124). -/
theorem doublingFailure_ne_zero (i j : Nat) : doublingFailure i j ≠ 0 := by
  intro h
  have hbit := congrArg (·.getLsbD 30) h
  simp [doublingFailure] at hbit

/-- CHECK tries every relation at every slot (R123). -/
theorem mem_doublingPairs {slots j : Nat} {i : Fin 4} : (i, j) ∈ doublingPairs slots ↔ j < slots := by
  fin_cases i <;> simp [doublingPairs]

/-- CHECK reports 0 exactly on the configurations that pass (R121 to R124). -/
theorem checkWord_eq_zero_iff {w : Nat} (slots clen : Nat) (gen : Fin 5 → BitVec w) :
    checkWord slots clen gen = 0 ↔ clen ≤ slots ∧ doublesEverywhere slots gen := by
  unfold checkWord
  by_cases hlen : slots < clen
  · rw [if_pos hlen]
    exact ⟨fun h => absurd h (by decide), fun h => absurd h.1 (Nat.not_le.mpr hlen)⟩
  · rw [if_neg hlen]
    cases hfind : (doublingPairs slots).find? fun p => !doublesAt gen p.1 p.2 with
    | none =>
      refine ⟨fun _ => ⟨Nat.not_lt.mp hlen, fun i j hj => ?_⟩, fun _ => rfl⟩
      simpa [doublesAt] using List.find?_eq_none.mp hfind (i, j) (mem_doublingPairs.mpr hj)
    | some p =>
      obtain ⟨i, j⟩ := p
      refine ⟨fun h => absurd h (doublingFailure_ne_zero _ _), fun h => ?_⟩
      have hj : j < slots := mem_doublingPairs.mp (List.mem_of_find?_eq_some hfind)
      have hfail := List.find?_some hfind
      simp [doublesAt, h.2 i j hj] at hfail

/-- CHECK sets CFG_OK exactly when the length condition and the doubling relation hold (R123). -/
theorem State.cfgOk_setVerdict_diagnostic (s : State) :
    (s.setVerdict s.diagnostic).cfgOk = true ↔ s.lengthCondition ∧ s.doublingRelation := by
  rw [State.cfgOk_setVerdict, beq_iff_eq]
  exact checkWord_eq_zero_iff _ _ _

/-- Settles O46: reset and the configuration writes clear CFG_OK, CHECK has one word, and no other event touches the flag. -/
theorem onlyResetCheckAndConfigurationWritesChangeCfgOk :
    Obligations.OnlyResetCheckAndConfigurationWritesChangeCfgOk := by
  refine ⟨fun s rest hp => ⟨_, step_reset hp, rfl⟩, fun s rest hp => ?_, fun s v off rest hp hoff => ?_,
    fun s t hstep hne => ?_⟩
  · exact ⟨_, step_command hp, State.cfgOk_setVerdict_diagnostic { s with pending := rest, response := .done }⟩
  · rcases hoff with rfl | ⟨hlow, hhigh, halign⟩
    · exact ⟨_, step_write (r := .cfg) hp rfl (by decide), rfl⟩
    · obtain ⟨i, k, hat⟩ := WindowReg.at_genSh hlow hhigh halign
      exact ⟨_, step_write hp hat (by simp), rfl⟩
  · rcases step_change State.cfgOk (fun _ _ _ => rfl) hstep hne with
      hreset | ⟨v, u, hhead, hu, hrun⟩ | ⟨off, v, r, u, hhead, hat, hu, ht⟩
    · exact .inl hreset
    · rw [← hu] at hne
      rcases runCommand_cases hrun with ⟨c, rfl⟩ | ⟨i, hdec, rfl⟩
      · exact absurd rfl hne
      · have hi : i = .check := by
          by_contra hi
          exact hne (u.cfgOk_perform hi)
        rw [hhead, word_of_decode (.inl hi) hdec, hi]
        exact .inr (.inl rfl)
    · refine .inr (.inr ⟨off, v, hhead, ?_⟩)
      rcases u.cfgOk_writeReg r v with ⟨rfl | ⟨i, k, rfl⟩, hfalse⟩ | hkeep
      · exact ⟨.inl (WindowReg.offset_of_cfg hat), ht.trans hfalse⟩
      · exact ⟨.inr (WindowReg.offset_of_genSh hat), ht.trans hfalse⟩
      · exact absurd (ht.trans (hkeep.trans hu)) hne

/-! ### Reset -/

/-- RESIDUE is ONE after reset, and the null value at width 0 (R23, R45). -/
theorem State.residue_resetOf (w : PackedWidth) :
    (State.resetOf w).residue.toNat = if w.bits = 0 then 0 else 1 := by
  cases w <;> rfl

/-- CLEN is 0 after reset (R45). -/
theorem State.clen_resetOf (w : PackedWidth) : (State.resetOf w).clen = 0 :=
  ite_self (0 : BitVec 5)

/-- Every generator register is 0 after reset (R45). -/
theorem State.gen_resetOf (w : PackedWidth) (i : Fin 5) : (State.resetOf w).gen i = 0 := by
  fin_cases i <;> rfl

/-- Settles O19: RESIDUE by the width, CLEN through its accessor, the rest by the definition of `State.resetOf`. -/
theorem resetPutsEveryElementToItsValue : Obligations.ResetPutsEveryElementToItsValue := by
  unfold Obligations.ResetPutsEveryElementToItsValue
  intro fresh
  have hfresh : ∀ w rest, fresh { State.resetOf w with pending := rest } := fun w rest =>
    ⟨State.residue_resetOf w, rfl, fun i => congrArg BitVec.toNat (State.gen_resetOf w i), State.clen_resetOf w,
      rfl, rfl, rfl, rfl, rfl, rfl, rfl, rfl, rfl, rfl⟩
  exact ⟨hfresh Config.resetWidth [], fun s rest hp => ⟨_, step_reset hp, rfl, rfl, hfresh s.width rest⟩⟩

/-! ### The invariant -/

/-- The reset state has the invariant: idle, no error, CFG_OK = 0 (R45). -/
theorem State.inv_resetOf (w : PackedWidth) : (State.resetOf w).Inv where
  seq := ⟨rfl, rfl⟩
  err := ⟨⟨fun _ => rfl, fun _ => rfl⟩, Nat.zero_le 6⟩
  cfgOk := fun h => nomatch h

/-- Settles O51: the reset state of every width, the one `State.reset` has among them. -/
theorem resetHasTheInvariant : Obligations.ResetHasTheInvariant :=
  ⟨State.inv_resetOf Config.resetWidth, State.inv_resetOf⟩

/-- The invariant does not speak of the port. -/
theorem State.Inv.withPort {s : State} (h : s.Inv) (q : List PortEvent) (r : Response) :
    State.Inv { s with pending := q, response := r } where
  seq := h.seq
  err := h.err
  cfgOk := h.cfgOk

/-- A recorded error keeps the error record sensible: the first code stays, and every code is 1 to 6 (R171, R173). -/
theorem State.errInv_recordError {s : State} (h : s.errInv) (c : ErrorCode) : (s.recordError c).errInv := by
  obtain ⟨hzero, hle⟩ := h
  cases herr : s.err with
  | true =>
    rw [herr] at hzero
    simpa [State.errInv, herr] using ⟨fun h => Bool.noConfusion (hzero.mp h), hle⟩
  | false =>
    have hc : c.code ≠ 0 := by cases c <;> decide
    simpa [State.errInv, herr] using ⟨hc, c.code_range.2⟩

/-- However a command ends, the invariant stays. -/
theorem Effect.inv {s t : State} (he : Effect s t) (h : s.Inv) : t.Inv := by
  cases he with
  | rejected c => exact ⟨h.seq, State.errInv_recordError h.err c, h.cfgOk⟩
  | value r x => exact ⟨h.seq, h.err, h.cfgOk⟩
  | verdict => exact ⟨h.seq, h.err, s.cfgOk_setVerdict_diagnostic.mp⟩
  | cleared => exact ⟨h.seq, ⟨⟨fun _ => rfl, fun _ => rfl⟩, Nat.zero_le 6⟩, h.cfgOk⟩
  | sequence r p l k idle busy =>
    refine ⟨?_, h.err, h.cfgOk⟩
    have hseq := h.seq
    unfold State.seqInv at hseq ⊢
    split
    · exact idle ‹_›
    · exact busy (fun hp => by rwa [if_neg hp] at hseq) ‹_›

/-- A register write keeps the invariant: one that changes the configuration clears CFG_OK (R34). -/
theorem State.inv_writeReg {s : State} (h : s.Inv) (r : WindowReg) (v : Word) : (s.writeReg r v).Inv := by
  cases r with
  | cfg => exact ⟨h.seq, h.err, fun hok => nomatch hok⟩
  | packedWord p k =>
    cases p with
    | genSh i => exact ⟨h.seq, h.err, fun hok => nomatch hok⟩
    | residue | target => exact ⟨h.seq, h.err, h.cfgOk⟩
  | id | param | codeLength | status | errcode | cmd | result | seqCnt | seqRemain => exact ⟨h.seq, h.err, h.cfgOk⟩

/-- Settles O50, by what a step can do: a command ends in one of five ways, each of which keeps the invariant. -/
theorem everyStepKeepsTheInvariant : Obligations.EveryStepKeepsTheInvariant := by
  intro s t h hstep
  rcases step_cases hstep with ⟨-, rfl⟩ | ⟨e, rest, -, hev⟩
  · exact h
  rcases hev with ⟨-, rfl⟩ | ⟨_, _, r, -, rfl⟩ | ⟨_, _, v, -, hw⟩
  · exact (State.inv_resetOf s.width).withPort rest .none
  · exact h.withPort rest r
  rcases hw with ⟨-, rfl⟩ | ⟨-, hrun⟩ | ⟨r, -, -, rfl⟩
  · exact h.withPort rest .busError
  · obtain ⟨u, hu, he⟩ := runCommand_effect v { s with pending := rest, response := .done }
    cases hrun.symm.trans hu
    exact he.inv (h.withPort rest .done)
  · exact (State.inv_writeReg (h.withPort rest s.response) r v).withPort _ .done

/-! ### CODE_LENGTH -/

/-- Settles O33: the write stores it, the read answers it, and the checks and the pseudocode of every command pass it by. -/
theorem codeLengthIsOnlyStored : Obligations.CodeLengthIsOnlyStored := by
  refine ⟨fun _ => rfl, fun s v rest hp => ?_, fun i s x => ⟨exec_setCodeLength i s x, ?_⟩⟩
  · exact ⟨_, step_write (r := .codeLength) hp rfl (by decide), step_read (r := .codeLength) rfl rfl⟩
  · obtain ⟨t, ht, he⟩ := exec_effect i s
    refine ⟨t, ht, ?_⟩
    cases he <;> rfl

end Sys2Proof.Machine
end

section
/-! SUPPORT. What each register reads as a number: its fields as place values (R32 to R40, R67, R79). -/

namespace Sys2Proof.Machine

/-- Joined bit fields are place values. -/
theorem toNat_append_eq_add {m n : Nat} (x : BitVec m) (y : BitVec n) :
    (x ++ y).toNat = x.toNat * 2 ^ n + y.toNat := by
  rw [BitVec.toNat_append, ← Nat.shiftLeft_add_eq_or_of_lt y.isLt, Nat.shiftLeft_eq]

section
variable (s : State)

/-- PARAM (R39). -/
theorem State.toNat_paramWord :
    s.paramWord.toNat = s.width.bits + 256 * (s.width.bits / 5) + 65536 * 41 + 16777216 * 5 := by
  unfold State.paramWord PackedWidth.slots
  cases s.width <;> rfl

/-- STATUS (R32): ERR, CFG_OK and the sequencer's phase. -/
theorem State.toNat_statusWord :
    s.statusWord.toNat
      = s.err.toNat + 2 * s.cfgOk.toNat + 4 * (match s.phase with | .idle => 0 | .hi => 1 | .lo => 2) := by
  unfold State.statusWord
  cases s.err <;> cases s.cfgOk <;> cases s.phase <;> rfl

/-- CFG (R28 to R30): CLEN and SEP. -/
theorem State.toNat_readReg_cfg : (s.readReg .cfg).toNat = s.clen.toNat + 256 * s.sep.toNat := by
  have hword : (s.readReg .cfg).toNat = (s.sep ++ 0#3 ++ s.clen).toNat :=
    BitVec.toNat_setWidth_of_le (by decide)
  rw [hword, toNat_append_eq_add, toNat_append_eq_add]
  simp only [BitVec.toNat_ofNat]
  omega

/-- SEQ_CNT (R37): LEN below IDX. -/
theorem State.toNat_readReg_seqCnt : (s.readReg .seqCnt).toNat = s.seqLen.toNat + 65536 * s.seqIdx.toNat := by
  have hword : (s.readReg .seqCnt).toNat = s.seqIdx.toNat * 2 ^ 16 + s.seqLen.toNat := toNat_append_eq_add _ _
  omega

/-- SEQ_REMAIN counts without wrapping where the sequencer's position makes sense (R37, R38). -/
theorem State.toNat_seqRemain {s : State} (h : s.seqInv) : s.seqRemain.toNat = s.remaining := by
  have hlen := s.seqLen.isLt
  unfold State.seqInv at h
  unfold State.seqRemain State.remaining
  cases hp : s.phase with
  | idle => rfl
  | hi =>
    rw [if_neg (by simp [hp])] at h
    simp only [BitVec.toNat_add, BitVec.toNat_sub, BitVec.toNat_setWidth, BitVec.ofNat_eq_ofNat,
      BitVec.toNat_ofNat]
    omega
  | lo =>
    rw [if_neg (by simp [hp])] at h
    simp only [BitVec.toNat_sub, BitVec.toNat_setWidth]
    omega

end

/-- A read whose register's word is the number `x` answers `x`. -/
theorem step_read_toNat {s : State} {rest : List PortEvent} {off x : Nat} {r : WindowReg}
    (h : s.pending = .read .b32 off :: rest) (hr : WindowReg.at off = some r) (hx : (s.readReg r).toNat = x) :
    x < 2 ^ 32 ∧ step s = .next { s with pending := rest, response := .data (BitVec.ofNat 32 x) } := by
  subst hx
  rw [BitVec.ofNat_toNat, BitVec.setWidth_eq]
  exact ⟨(s.readReg r).isLt, step_read h hr⟩

/-- Settles O13: each offset reaches its register, and each register's word is the number of its fields. -/
theorem readsReturnTheRegisters : Obligations.ReadsReturnTheRegisters := by
  intro s rest off x hp hoff
  rcases hoff with ⟨rfl, rfl⟩ | ⟨rfl, rfl⟩ | ⟨rfl, rfl⟩ | ⟨rfl, rfl⟩ | ⟨rfl, rfl⟩ | ⟨rfl, rfl⟩ | ⟨rfl, rfl⟩ | ⟨rfl, rfl⟩ |
    ⟨rfl, rfl⟩ | ⟨rfl, hseq, rfl⟩ | ⟨k, hk, rfl, rfl⟩ | ⟨k, hk, rfl, rfl⟩ | ⟨i, k, hk, rfl, rfl⟩
  · exact step_read_toNat (r := .id) hp rfl rfl
  · exact step_read_toNat (r := .param) hp rfl s.toNat_paramWord
  · exact step_read_toNat (r := .cfg) hp rfl s.toNat_readReg_cfg
  · exact step_read_toNat (r := .codeLength) hp rfl rfl
  · exact step_read_toNat (r := .status) hp rfl s.toNat_statusWord
  · exact step_read_toNat (r := .errcode) hp rfl (BitVec.toNat_setWidth_of_le (by decide))
  · exact step_read_toNat (r := .cmd) hp rfl rfl
  · exact step_read_toNat (r := .result) hp rfl rfl
  · exact step_read_toNat (r := .seqCnt) hp rfl s.toNat_readReg_seqCnt
  · exact step_read_toNat (r := .seqRemain) hp rfl (State.toNat_seqRemain hseq)
  · exact step_read_toNat hp (WindowReg.at_packedWord .residue hk) (toNat_getWord _ _)
  · exact step_read_toNat hp (WindowReg.at_packedWord .target hk) (toNat_getWord _ _)
  · refine step_read_toNat hp (Eq.trans (congrArg _ ?_) (WindowReg.at_packedWord (.genSh i) hk)) (toNat_getWord _ _)
    simp only [PackedReg.number]
    omega

end Sys2Proof.Machine
end

section
/-! SUPPORT. R44: under a well-formed configuration the slots of RESIDUE at and above CLEN, and its pad bits, stay 0. -/

namespace Sys2Proof.Machine

/-! ### Values whose high slots and pad bits are 0 -/

section
variable {w c : Nat}

/-- Where the degree `c` lies within the slots, the slots from `c` up and the pad bits are the bits from `5c` up. -/
theorem highClear_iff (hc : c ≤ w / 5) (v : BitVec w) :
    highClear v c ↔ ∀ p, 5 * c ≤ p → v.getLsbD p = false := by
  constructor
  · intro ⟨hslots, hpad⟩ p hp
    by_cases hw : p < w
    · by_cases hslot : p / 5 < w / 5
      · have hbit := congrArg (·.getLsbD (p % 5)) (hslots (p / 5) hslot (by omega))
        have hlt : p % 5 < 5 := Nat.mod_lt _ (by decide)
        simpa [hlt, Nat.div_add_mod] using hbit
      · exact hpad p hw (by omega)
    · exact BitVec.getLsbD_of_ge v p (by omega)
  · intro h
    refine ⟨fun n _ hn => ?_, fun p _ hp => h p (by omega)⟩
    ext i hi
    simpa using h (5 * n + i) (by omega)

/-- ONE lies below every degree from 1 up (R23). -/
theorem highClear_one (hc1 : 1 ≤ c) (hc : c ≤ w / 5) : highClear (1#w) c := by
  rw [highClear_iff hc]
  intro p hp
  have hp0 : p ≠ 0 := by omega
  simp [BitVec.getLsbD_one, hp0]

/-- The shift at degree `c` keeps a value below degree `c`: slot `c - 1` is dropped, the others move up (R111). -/
theorem highClear_mulx (hc1 : 1 ≤ c) (hc : c ≤ w / 5) {v : BitVec w} (hv : highClear v c) (a : FieldElem) :
    highClear (mulx v c a).1 c := by
  rw [highClear_iff hc] at hv ⊢
  intro p hp
  rw [getLsbD_mulx_fst (by omega), if_neg (by omega)]
  by_cases hdropped : p - 5 < 5 * (c - 1) + 5
  · have hlow : 5 * (c - 1) ≤ p - 5 := by omega
    simp [hlow, hdropped]
  · simp [hv (p - 5) (by omega)]

/-- The exclusive ors of values below degree `c` are below it (R130). -/
theorem highClear_addGenerators (hc : c ≤ w / 5) {gen : Fin 5 → BitVec w} (hgen : ∀ i, highClear (gen i) c)
    (m : FieldElem) {t : BitVec w} (ht : highClear t c) : highClear (addGenerators gen m t) c := by
  simp only [highClear_iff hc] at hgen ht ⊢
  intro p hp
  rw [getLsbD_addGenerators]
  simp [ht p hp, hgen _ p hp]

/-- A division step at degree `c` keeps a residue below degree `c`. -/
theorem highClear_divStep (hc1 : 1 ≤ c) (hc : c ≤ w / 5) {gen : Fin 5 → BitVec w} (hgen : ∀ i, highClear (gen i) c)
    {r : BitVec w} (hr : highClear r c) (e : FieldElem) : highClear (divStep gen c r e) c :=
  highClear_addGenerators hc hgen _ (highClear_mulx hc1 hc hr e)

/-- So do the division steps with the slots of a vector (R133). -/
theorem highClear_divSlots (hc1 : 1 ≤ c) (hc : c ≤ w / 5) {gen : Fin 5 → BitVec w} (hgen : ∀ i, highClear (gen i) c)
    (v : BitVec w) (k : Nat) {r : BitVec w} (hr : highClear r c) : highClear (divSlots gen c v k r) c := by
  induction k generalizing r with
  | zero => exact hr
  | succ k ih => exact ih (highClear_divStep hc1 hc hgen hr _)

end

/-! ### Every command keeps RESIDUE below degree CLEN -/

/-- No command touches the configuration (R24, R25). -/
theorem Effect.configuration {s t : State} (he : Effect s t) (h : s.configWellFormed) :
    t.configWellFormed ∧ t.clen = s.clen := by
  cases he <;> exact ⟨h, rfl⟩

/-- RESIDUE lies below degree CLEN: its slots from CLEN up and its pad bits are 0 (R44). -/
def State.BelowClen (s : State) : Prop := highClear s.residue s.clen.toNat

/-- FEED keeps RESIDUE below degree CLEN (R132). -/
theorem State.BelowClen.feed {s : State} (hr : s.BelowClen) (h : s.configWellFormed) (e : FieldElem) :
    (s.feed e).BelowClen :=
  have ⟨⟨hc1, hc⟩, hgen⟩ := h
  highClear_divStep hc1 hc hgen hr e

/-- A byte of the high pass feeds its element, and the separator after the last one (R153). -/
theorem State.BelowClen.prefixHigh {s : State} (hr : s.BelowClen) (h : s.configWellFormed) (b : Byte) :
    (s.prefixHigh b).BelowClen := by
  have hfeed : (s.feed (highElem b)).BelowClen := hr.feed h _
  by_cases hlast : s.lastOfPass = true
  · have hres : (s.prefixHigh b).residue = ((s.feed (highElem b)).feed s.sep).residue := if_pos hlast
    unfold State.BelowClen
    rw [hres]
    exact hfeed.feed h s.sep
  · have hres : (s.prefixHigh b).residue = (s.feed (highElem b)).residue := if_neg hlast
    unfold State.BelowClen
    rw [hres]
    exact hfeed

/-- A performed command keeps RESIDUE below degree CLEN, MULX at that degree among them (R44, log 14). -/
theorem State.BelowClen.perform {s : State} (hr : s.BelowClen) (h : s.configWellFormed) {i : Instr}
    (hm : ∀ d a, i = .mulx d a → d = s.clen) : (s.perform i).BelowClen := by
  have ⟨⟨hc1, hc⟩, hgen⟩ := h
  cases i with
  | nop | unpack | check | clrerr => exact hr
  | init => exact highClear_one hc1 hc
  | feed e => exact hr.feed h e
  | tgt => exact highClear_divSlots hc1 hc hgen s.target s.clen.toNat hr
  | mulx d a =>
    have hd : d = s.clen := hm d a rfl
    subst hd
    exact highClear_mulx hc1 hc hr a
  | pfxb n =>
    simp only [State.perform]
    split
    · exact hr.feed h s.sep
    · exact hr
  | pfxd b =>
    simp only [State.perform]
    split
    · exact hr.feed h (lowElem b)
    · exact hr.prefixHigh h b

/-- Every command, rejected or performed, keeps RESIDUE below degree CLEN and the configuration well-formed (R44). -/
theorem exec_keeps_belowClen {i : Instr} {s t : State} (h : s.configWellFormed)
    (hr : s.BelowClen) (hm : ∀ d a, i = .mulx d a → d = s.clen) (hexec : exec i s = .next t) :
    t.configWellFormed ∧ t.clen = s.clen ∧ t.BelowClen := by
  have hconfig : t.configWellFormed ∧ t.clen = s.clen := by
    obtain ⟨u, hu, he⟩ := exec_effect i s
    cases hexec.symm.trans hu
    exact he.configuration h
  refine ⟨hconfig.1, hconfig.2, ?_⟩
  rcases exec_cases hexec with ⟨c, rfl⟩ | rfl
  · exact hr
  · exact State.BelowClen.perform hr h hm

/-- So does every list of commands (R44). -/
theorem execAll_keeps_belowClen (is : List Instr) (s : State) (h : s.configWellFormed)
    (hr : s.BelowClen) (hm : ∀ d a, Instr.mulx d a ∈ is → d = s.clen) :
    ∃ t, execAll is s = .next t ∧ t.configWellFormed ∧ t.clen = s.clen ∧ t.BelowClen := by
  induction is generalizing s with
  | nil => exact ⟨s, rfl, h, rfl, hr⟩
  | cons i is ih =>
    obtain ⟨u, hu, -⟩ := exec_effect i s
    obtain ⟨hwf, hclen, hclear⟩ :=
      exec_keeps_belowClen h hr (fun d a hi => hm d a (hi ▸ List.mem_cons_self)) hu
    obtain ⟨t, ht, htwf, htclen, htclear⟩ :=
      ih u hwf hclear fun d a hmem => (hm d a (List.mem_cons_of_mem i hmem)).trans hclen.symm
    refine ⟨t, ?_, htwf, htclen.trans hclen, htclear⟩
    simp only [execAll, hu, ht]

/-- Settles O52: one command by what it writes; after INIT, whose ONE lies below CLEN, a list of commands by induction. -/
theorem residueStaysBelowTheGeneratorDegree : Obligations.ResidueStaysBelowTheGeneratorDegree := by
  refine ⟨fun i s t h hr hm hexec => exec_keeps_belowClen h hr hm hexec, fun is s h hm => ?_⟩
  have ⟨⟨hc1, hc⟩, _⟩ := h
  exact execAll_keeps_belowClen is { s.seqIdle with residue := 1#s.width.bits } h (highClear_one hc1 hc) hm

end Sys2Proof.Machine
end

section
/-! SUPPORT. The register window as memory (R60 to R68, R79): which accesses are legal, what a write runs or stores, and what
it does at a read-only register and at an absent word. -/

namespace Sys2Proof.Machine

/-! ### Legal accesses -/

/-- Seven packed registers have numbers (R96). -/
theorem PackedReg.ofNumber_eq_none_iff (n : Nat) : PackedReg.ofNumber n = none ↔ 7 ≤ n := by
  unfold PackedReg.ofNumber
  split
  case h_8 =>
    simp only [imp_false, true_iff] at *
    omega
  all_goals simp

/-- The offsets at which nothing is mapped: the misaligned ones, the gap below the packed registers, and all above
them (R61, R63, R65). -/
theorem WindowReg.at_eq_none_iff (off : Nat) :
    WindowReg.at off = none ↔ ¬(off % 4 = 0 ∧ (off ≤ 0x024 ∨ (0x040 ≤ off ∧ off ≤ 0x0AC))) := by
  unfold WindowReg.at
  split
  case h_11 =>
    split
    · rw [Option.map_eq_none_iff, PackedReg.ofNumber_eq_none_iff]
      omega
    · simp only [imp_false, true_iff] at *
      omega
  all_goals simp

/-- The illegal accesses (R62, R63, R65). -/
theorem WindowReg.reached_eq_none_iff (size : AccessSize) (off : Nat) :
    WindowReg.reached size off = none ↔
      ¬(size = .b32 ∧ off % 4 = 0 ∧ (off ≤ 0x024 ∨ (0x040 ≤ off ∧ off ≤ 0x0AC))) := by
  unfold WindowReg.reached
  by_cases hsize : size = .b32
  · rw [if_pos hsize, WindowReg.at_eq_none_iff, and_iff_right hsize]
  · simp [hsize]

/-- No command writes the port's answer (R170, log 3). -/
theorem Effect.response {s t : State} (he : Effect s t) : t.response = s.response := by
  cases he <;> rfl

/-- An access that reaches no register gets the bus error, and nothing else changes (R64). -/
theorem deliver_of_unreached {size : AccessSize} {off : Nat} (h : WindowReg.reached size off = none) (v : Word)
    (s : State) {e : PortEvent} (he : e = .read size off ∨ e = .write size off v) :
    deliver e s = .next { s with response := .busError } := by
  rcases he with rfl | rfl
  · simp only [deliver, busRead, h]
  · simp only [deliver, busWrite, h]

/-- An access that reaches a register is answered, and not by the bus error (R79, R170). -/
theorem deliver_of_reached {size : AccessSize} {off : Nat} (h : WindowReg.reached size off ≠ none) (v : Word)
    (s : State) {e : PortEvent} (he : e = .read size off ∨ e = .write size off v) :
    ∃ t, deliver e s = .next t ∧ t.response ≠ .busError := by
  rcases he with rfl | rfl
  · obtain ⟨r, hr⟩ := Option.ne_none_iff_exists'.mp h
    refine ⟨_, busRead_eq size off s, ?_⟩
    simp [hr]
  · rcases busWrite_cases size off v s with ⟨hnone, -⟩ | ⟨-, hw⟩ | ⟨r, -, -, hw⟩
    · exact absurd hnone h
    · obtain ⟨t, ht, heff⟩ := runCommand_effect v { s with response := .done }
      refine ⟨t, hw.trans ht, ?_⟩
      simp [heff.response]
    · exact ⟨_, hw, by simp⟩

/-- Settles O16: the predicate of the statement is where no register is reached. -/
theorem illegalAccessIsABusError : Obligations.IllegalAccessIsABusError := by
  intro s rest size off v haccess
  obtain ⟨e, hp, he⟩ : ∃ e, s.pending = e :: rest ∧ (e = .read size off ∨ e = .write size off v) := by
    rcases haccess with hp | hp
    · exact ⟨_, hp, .inl rfl⟩
    · exact ⟨_, hp, .inr rfl⟩
  rw [← WindowReg.reached_eq_none_iff, step_of_pending_cons hp]
  have hreached hlegal : WindowReg.reached size off ≠ none := fun hnone =>
    (WindowReg.reached_eq_none_iff size off).mp hnone hlegal
  exact ⟨fun hnone => deliver_of_unreached hnone v _ he, fun hlegal => deliver_of_reached (hreached hlegal) v _ he⟩

/-! ### Commands and read-only registers -/

/-- A word that decodes to a command runs it (R99). -/
theorem runCommand_of_decode_ok {v : Word} {i : Instr} (h : decode v = .ok i) (s : State) :
    runCommand v s = exec i s := by
  simp only [runCommand, h]

/-- A word that decodes to none is rejected with its code (R94, R95, R170). -/
theorem runCommand_of_decode_error {v : Word} {e : DecodeError} (h : decode v = .error e) (s : State) :
    runCommand v s = .next (s.rejected (decodeErrorCode e).code) := by
  simp only [runCommand, h]
  rfl

/-- Settles O8: a write to CMD is `runCommand`, which goes by what the word decodes to. -/
theorem stepRunsTheDecodedCommand : Obligations.StepRunsTheDecodedCommand := fun _ _ _ hp =>
  ⟨fun _ hok => (step_command hp).trans (runCommand_of_decode_ok hok _),
    fun hopcode => (step_command hp).trans (runCommand_of_decode_error hopcode _),
    fun hreserved => (step_command hp).trans (runCommand_of_decode_error hreserved _)⟩

/-- The read-only registers (R66). CMD is none of them: a write to it is a command. -/
def WindowReg.readOnly : WindowReg → Bool
  | .id | .param | .status | .errcode | .result | .seqCnt | .seqRemain | .packedWord .residue _ => true
  | .cfg | .codeLength | .cmd | .packedWord .target _ | .packedWord (.genSh _) _ => false

/-- A write to a read-only register stores nothing (R66). -/
theorem State.writeReg_readOnly (s : State) {r : WindowReg} (hr : r.readOnly = true) (v : Word) :
    s.writeReg r v = s := by
  cases r with
  | packedWord p k =>
    cases p with
    | residue => rfl
    | target | genSh i => cases hr
  | cfg | codeLength => cases hr
  | id | param | status | errcode | cmd | result | seqCnt | seqRemain => rfl

/-- The offsets of the read-only registers (R61, R66). -/
theorem WindowReg.readOnly_at :
    ∀ off ∈ [0x000, 0x004, 0x010, 0x014, 0x01C, 0x020, 0x024, 0x040, 0x044, 0x048, 0x04C],
      (WindowReg.at off).any WindowReg.readOnly = true := by decide

/-- A write to a mapped register other than CMD, by the state `writeReg` answers. -/
theorem step_write_of_eq {s t : State} {rest : List PortEvent} {off : Nat} {v : Word} {r : WindowReg}
    (h : s.pending = .write .b32 off v :: rest) (hr : WindowReg.at off = some r) (hcmd : r ≠ .cmd)
    (ht : ({ s with pending := rest } : State).writeReg r v = t) : step s = .next { t with response := .done } :=
  ht ▸ step_write h hr hcmd

/-- Settles O15: each offset of the list reaches a read-only register, and a write to one stores nothing. -/
theorem writesToReadOnlyRegistersAreIgnored : Obligations.WritesToReadOnlyRegistersAreIgnored := by
  intro s rest v off hoff hp
  obtain ⟨r, hat, hro⟩ := (Option.any_eq_true _ _).mp (WindowReg.readOnly_at off hoff)
  have hcmd : r ≠ .cmd := by
    rintro rfl
    cases hro
  exact step_write_of_eq hp hat hcmd (State.writeReg_readOnly _ hro v)

/-! ### What a write stores -/

/-- A five-bit field of a bus word as a place value (R28, R30). -/
theorem extractLsb'_five_eq_ofNat (v : Word) (k : Nat) :
    v.extractLsb' k 5 = BitVec.ofNat 5 (v.toNat / 2 ^ k % 32) := by
  apply BitVec.eq_of_toNat_eq
  simp [BitVec.extractLsb'_toNat, Nat.shiftRight_eq_div_pow]

/-- A write to CFG, its fields as place values: CLEN, which is not stored at width 0, and SEP; CFG_OK is
cleared (R28 to R30, R34). -/
theorem State.writeReg_cfg (s : State) (v : Word) :
    s.writeReg .cfg v = { s with
      clenField := if s.width.bits = 0 then s.clenField else BitVec.ofNat 5 (v.toNat % 32)
      sep := BitVec.ofNat 5 (v.toNat / 256 % 32)
      cfgOk := false } := by
  simp only [State.writeReg, extractLsb'_five_eq_ofNat, Nat.reducePow, Nat.div_one]

/-- CLEN is hard-wired to 0 at width 0 (R29). -/
theorem State.clen_null {s : State} (h : s.width.bits = 0) : s.clen = 0 := if_pos h

/-- Word `k` of GEN_SH`i` stands at `0x060 + 16 i + 4 k` (R61). -/
theorem WindowReg.at_genShWord (i : Fin 5) {k : Nat} (hk : k < 4) :
    WindowReg.at (0x060 + 16 * i.val + 4 * k) = some (.packedWord (.genSh i) k) := by
  rw [← WindowReg.at_packedWord (.genSh i) hk, PackedReg.number]
  congr 1
  omega

/-- The bits of a packed register after a word is written, below its width. -/
theorem getLsbD_setWord_of_lt {w p : Nat} (hp : p < w) (t : BitVec w) (k : Nat) (v : Word) :
    (setWord t k v).getLsbD p
      = if 32 * k ≤ p ∧ p < 32 * k + 32 then v.getLsbD (p - 32 * k) else t.getLsbD p := by
  simp only [getLsbD_setWord, hp, true_and]

/-- Settles O14: each offset reaches its register, and the write stores the word's fields or one word of the register. -/
theorem writesStoreTheRegisters : Obligations.WritesStoreTheRegisters := by
  intro s rest off v hp
  refine ⟨?_, ?_, ?_, ?_, ?_⟩
  · rintro rfl hw
    rw [step_write_of_eq (r := .cfg) hp rfl (by decide) (State.writeReg_cfg _ v)]
    simp only [if_neg (Nat.ne_of_gt hw)]
  · rintro rfl hw
    exact ⟨_, step_write_of_eq (r := .cfg) hp rfl (by decide) (State.writeReg_cfg _ v), State.clen_null hw, rfl⟩
  · rintro rfl
    exact step_write (r := .codeLength) hp rfl (by decide)
  · rintro k hk rfl
    exact ⟨setWord s.target k v, step_write hp (WindowReg.at_packedWord .target hk) (by simp),
      fun p hlt => getLsbD_setWord_of_lt hlt s.target k v⟩
  · rintro i k hk rfl
    exact ⟨setWord (s.gen i) k v, step_write hp (WindowReg.at_genShWord i hk) (by simp),
      fun p hlt => getLsbD_setWord_of_lt hlt (s.gen i) k v⟩

/-! ### Absent words -/

/-- A word at or above the width reads 0 (R68). -/
theorem getWord_absent {w k : Nat} (h : w ≤ 32 * k) (p : BitVec w) : getWord p k = 0 := if_neg (Nat.not_lt.mpr h)

/-- A write to a word at or above the width is ignored (R68). -/
theorem setWord_absent {w k : Nat} (h : w ≤ 32 * k) (p : BitVec w) (v : Word) : setWord p k v = p :=
  if_neg (Nat.not_lt.mpr h)

/-- A write to an absent word leaves every register, and clears CFG_OK if the register is a GEN_SH (R34, R68). -/
theorem State.writeReg_absent (s : State) (p : PackedReg) {k : Nat} (h : s.width.bits ≤ 32 * k) (v : Word) :
    s.writeReg (.packedWord p k) v = { s with cfgOk := if p = .residue ∨ p = .target then s.cfgOk else false } := by
  cases p with
  | residue => rfl
  | target => simp [State.writeReg, setWord_absent h]
  | genSh i =>
    have hkeep : s.setGen i (setWord (s.gen i) k v) = s := by rw [setWord_absent h, State.setGen_gen]
    exact congrArg (fun u : State => { u with cfgOk := false }) hkeep

/-- Settles O17: the word's offset is mapped, so it is no bus error; the read finds no bit and the write none to store. -/
theorem absentWordsReadZeroAndIgnoreWrites : Obligations.AbsentWordsReadZeroAndIgnoreWrites := by
  intro s rest p k v hk habsent
  have hat := WindowReg.at_packedWord p hk
  refine ⟨fun hp => ?_, fun hp => ?_⟩
  · rw [step_read hp hat, State.readReg, getWord_absent habsent]
  · exact step_write_of_eq hp hat (by simp) (State.writeReg_absent { s with pending := rest } p habsent v)

end Sys2Proof.Machine
end

section
/-! SUPPORT. Loading a packed register word by word (R67, R68), and the four writes of LDPK (R101). -/

namespace Sys2Proof.Machine

/-- The state after a write to word `k` of a packed register, answered (R67, R79). -/
def State.storeWord (s : State) (p : PackedReg) (k : Nat) (v : Word) : State :=
  { s.writeReg (.packedWord p k) v with response := .done }

/-- A write to a word of a packed register, by the register's first offset (R61, R79). -/
theorem deliver_write_packedWord (p : PackedReg) {k : Nat} (hk : k < 4) (v : Word) (s : State) :
    deliver (.write .b32 (p.base + 4 * k) v) s = .next (s.storeWord p k v) := by
  have hat : WindowReg.at (p.base + 4 * k) = some (.packedWord p k) := WindowReg.at_packedWord p hk
  simp only [deliver, busWrite, WindowReg.reached, if_true, hat]
  rfl

/-- Writes to words of a packed register, one after the other (R73). -/
theorem deliverAll_write_packedWords (p : PackedReg) (word : Nat → Word) (ks : List Nat) (hks : ∀ k ∈ ks, k < 4)
    (s : State) :
    deliverAll (ks.map fun k => .write .b32 (p.base + 4 * k) (word k)) s
      = .next (ks.foldl (fun t k => t.storeWord p k (word k)) s) := by
  induction ks generalizing s with
  | nil => rfl
  | cons k ks ih =>
    obtain ⟨hk, hks⟩ := List.forall_mem_cons.mp hks
    simp only [List.map_cons, List.foldl_cons, deliverAll, deliver_write_packedWord p hk, ih hks]

/-- A packed register with its words below `n` replaced by those of `x`, word 0 first. -/
def loadWords {w : Nat} (x : BitVec 128) (t : BitVec w) : Nat → BitVec w
  | 0 => t
  | n + 1 => setWord (loadWords x t n) n (x.extractLsb' (32 * n) 32)

/-- Loading words copies their bits (R67). -/
theorem getLsbD_loadWords {w : Nat} (x : BitVec 128) (t : BitVec w) (n i : Nat) (hi : i < w) :
    (loadWords x t n).getLsbD i = if i < 32 * n then x.getLsbD i else t.getLsbD i := by
  induction n with
  | zero => simp [loadWords]
  | succ n ih =>
    rw [loadWords, getLsbD_setWord_of_lt hi, ih, BitVec.getLsbD_extractLsb']
    by_cases hbelow : i < 32 * n
    · rw [if_neg (by omega), if_pos hbelow, if_pos (by omega)]
    · by_cases hword : i < 32 * n + 32
      · have hoffset : 32 * n + (i - 32 * n) = i := by omega
        rw [if_pos (by omega), if_pos (by omega), hoffset, decide_eq_true (by omega), Bool.true_and]
      · rw [if_neg (by omega), if_neg hbelow, if_neg (by omega)]

/-- No packed register is wider than 128 bits (R8). -/
theorem PackedWidth.bits_le (w : PackedWidth) : w.bits ≤ 128 := by
  cases w <;> decide

/-- Four words fill a packed register of any width with the low bits of the value (R67, R68). -/
theorem loadWords_four (w : PackedWidth) (x : BitVec 128) (t : BitVec w.bits) :
    loadWords x t 4 = x.setWidth w.bits := by
  have hw := PackedWidth.bits_le w
  apply BitVec.eq_of_getLsbD_eq
  intro i hi
  rw [getLsbD_loadWords x t 4 i hi, if_pos (by omega), BitVec.getLsbD_setWidth, decide_eq_true hi, Bool.true_and]

/-- LDPK loads a packed register with the low W bits of its operand: `store u` is the state with `u` in the register, which
a word's write reaches from `s` and from itself (R68, R101). -/
theorem deliverAll_loadPacked {p : PackedReg} {s : State} {t : BitVec s.width.bits}
    (store : BitVec s.width.bits → State)
    (hfirst : ∀ k v, s.storeWord p k v = store (setWord t k v))
    (hnext : ∀ u k v, (store u).storeWord p k v = store (setWord u k v)) (x : BitVec 128) :
    deliverAll (loadPacked p x) s = .next (store (x.setWidth s.width.bits)) := by
  have hwrites : deliverAll (loadPacked p x) s
      = .next ([0, 1, 2, 3].foldl (fun t k => t.storeWord p k (x.extractLsb' (32 * k) 32)) s) :=
    deliverAll_write_packedWords p (fun k => x.extractLsb' (32 * k) 32) [0, 1, 2, 3] (by decide) s
  have hwords : [0, 1, 2, 3].foldl (fun t k => t.storeWord p k (x.extractLsb' (32 * k) 32)) s
      = store (loadWords x t 4) := by
    simp only [List.foldl_cons, List.foldl_nil, hfirst, hnext, loadWords]
  rw [hwrites, hwords, loadWords_four]

/-- `s` with TARGET written, that write answered (R79). -/
def State.storeTarget (s : State) (u : BitVec s.width.bits) : State :=
  { s with target := u, response := .done }

/-- `s` with GEN_SH`i` written, that write answered: CFG_OK is cleared (R34, R79). -/
def State.storeGen (s : State) (i : Fin 5) (u : BitVec s.width.bits) : State :=
  { s.setGen i u with cfgOk := false, response := .done }

/-- A further write to the same generator register acts on the value stored before it. -/
theorem State.storeWord_storeGen (s : State) (i : Fin 5) (u : BitVec s.width.bits) (k : Nat) (v : Word) :
    (s.storeGen i u).storeWord (.genSh i) k v = s.storeGen i (setWord u k v) := by
  fin_cases i <;> rfl

/-- Settles O18: the four stores write `loadWords` of the register's old value, of which they leave no bit. -/
theorem fourWritesLoadAPackedRegister : Obligations.FourWritesLoadAPackedRegister := fun s x =>
  ⟨deliverAll_loadPacked (t := s.target) s.storeTarget (fun _ _ => rfl) (fun _ _ _ => rfl) x, fun i =>
    deliverAll_loadPacked (t := s.gen i) (s.storeGen i) (fun _ _ => rfl) (s.storeWord_storeGen i) x⟩

end Sys2Proof.Machine
end

section
/-! SUPPORT. A command word as its opcode and its operand bits (R90), the rows of the opcode table in those terms (R91),
and the two directions of the round trip between commands and words (R98, R99). -/

namespace Sys2Proof

/-! ### The opcode and the fields of a command -/

/-- `OPC` of a command (R91). -/
def Instr.opcode : Instr → Nat
  | .nop => 0
  | .init => 1
  | .feed _ => 2
  | .mulx _ _ => 3
  | .tgt => 4
  | .unpack _ _ => 5
  | .check => 6
  | .pfxb _ => 7
  | .pfxd _ => 8
  | .clrerr => 9

/-- Bits 27:0 of a command's word: each field in its place, 0 in every other bit (R91). -/
def Instr.operands : Instr → BitVec 28
  | .nop | .init | .tgt | .check | .clrerr => 0
  | .feed e => 0#23 ++ e
  | .mulx d a => 0#15 ++ d ++ 0#3 ++ a
  | .unpack src n => 0#17 ++ src ++ 0#3 ++ n
  | .pfxb n => 0#12 ++ n
  | .pfxd b => 0#20 ++ b

/-- The word of a command as a number, its fields as place values (R91, R92). -/
def Instr.number : Instr → Nat
  | .nop => 0x00000000
  | .init => 0x10000000
  | .feed e => 0x20000000 + e.toNat
  | .mulx d a => 0x30000000 + 256 * d.toNat + a.toNat
  | .tgt => 0x40000000
  | .unpack src n => 0x50000000 + 256 * src.toNat + n.toNat
  | .check => 0x60000000
  | .pfxb n => 0x70000000 + n.toNat
  | .pfxd b => 0x80000000 + b.toNat
  | .clrerr => 0x90000000

theorem Instr.number_eq (i : Instr) : i.number = i.opcode * 2 ^ 28 + i.operands.toNat := by
  cases i with
  | nop | init | tgt | check | clrerr => rfl
  | feed | mulx | unpack | pfxb | pfxd =>
    simp only [Instr.number, Instr.opcode, Instr.operands, Machine.toNat_append_eq_add, BitVec.toNat_ofNat]
    omega

theorem Instr.number_feed {e : Nat} (he : e < 32) : Instr.number (.feed (BitVec.ofNat 5 e)) = 0x20000000 + e := by
  rw [Instr.number, BitVec.toNat_ofNat, Nat.mod_eq_of_lt he]

theorem Instr.number_mulx {d a : Nat} (hd : d < 32) (ha : a < 32) :
    Instr.number (.mulx (BitVec.ofNat 5 d) (BitVec.ofNat 5 a)) = 0x30000000 + 256 * d + a := by
  rw [Instr.number, BitVec.toNat_ofNat, BitVec.toNat_ofNat, Nat.mod_eq_of_lt hd, Nat.mod_eq_of_lt ha]

theorem Instr.number_unpack {src n : Nat} (hsrc : src < 8) (hn : n < 32) :
    Instr.number (.unpack (BitVec.ofNat 3 src) (BitVec.ofNat 5 n)) = 0x50000000 + 256 * src + n := by
  rw [Instr.number, BitVec.toNat_ofNat, BitVec.toNat_ofNat, Nat.mod_eq_of_lt hsrc, Nat.mod_eq_of_lt hn]

theorem Instr.number_pfxb {n : Nat} (hn : n < 65536) : Instr.number (.pfxb (BitVec.ofNat 16 n)) = 0x70000000 + n := by
  rw [Instr.number, BitVec.toNat_ofNat, Nat.mod_eq_of_lt hn]

theorem Instr.number_pfxd {b : Nat} (hb : b < 256) : Instr.number (.pfxd (BitVec.ofNat 8 b)) = 0x80000000 + b := by
  rw [Instr.number, BitVec.toNat_ofNat, Nat.mod_eq_of_lt hb]

end Sys2Proof

namespace Sys2Proof.Machine

/-! ### The two parts of a word -/

/-- A word is its opcode and its operand bits (R90). -/
theorem word_eq_iff {v w : Word} : v = w ↔ opcOf v = opcOf w ∧ operandBits v = operandBits w := by
  have hjoin : ∀ x : Word, opcOf x ++ operandBits x = x := fun x => by
    rw [opcOf, operandBits, BitVec.extractLsb'_append_extractLsb'_eq_extractLsb' (by rfl)]
    exact BitVec.extractLsb'_eq_self
  refine ⟨fun h => ⟨congrArg opcOf h, congrArg operandBits h⟩, fun ⟨hopc, hbits⟩ => ?_⟩
  rw [← hjoin v, ← hjoin w, hopc, hbits]

@[simp] theorem opcOf_and (v w : Word) : opcOf (v &&& w) = opcOf v &&& opcOf w := BitVec.extractLsb'_and

@[simp] theorem operandBits_and (v w : Word) : operandBits (v &&& w) = operandBits v &&& operandBits w :=
  BitVec.extractLsb'_and

/-- The opcode as a number. -/
theorem toNat_opcOf (v : Word) : (opcOf v).toNat = v.toNat / 2 ^ 28 := by
  have hv := v.isLt
  rw [opcOf, BitVec.extractLsb'_toNat, Nat.shiftRight_eq_div_pow]
  omega

/-! ### The rows of the opcode table -/

/-- Every row of the table belongs to a command. -/
theorem exists_tableRow : ∀ row ∈ opcodeTable, ∃ i, Laws.tableRow i = row := by
  simp only [opcodeTable, List.forall_mem_cons]
  exact ⟨⟨.nop, rfl⟩, ⟨.init, rfl⟩, ⟨.feed 0, rfl⟩, ⟨.mulx 0 0, rfl⟩, ⟨.tgt, rfl⟩, ⟨.unpack 0 0, rfl⟩,
    ⟨.check, rfl⟩, ⟨.pfxb 0, rfl⟩, ⟨.pfxd 0, rfl⟩, ⟨.clrerr, rfl⟩, fun _ h => absurd h List.not_mem_nil⟩

theorem tableRow_mem (i : Instr) : Laws.tableRow i ∈ opcodeTable := by
  cases i <;> simp [Laws.tableRow, opcodeTable]

/-- A row fixes the opcode and the reserved bits, the latter to 0 (R90, R91). -/
theorem tableRow_parts (i : Instr) :
    opcOf (Laws.tableRow i).2 = BitVec.allOnes 4 ∧ operandBits (Laws.tableRow i).1 = 0 ∧
      operandBits (Laws.tableRow i).2 = ~~~(fieldMask (opcOf (Laws.tableRow i).1)) := by
  cases i <;> simp only [Laws.tableRow] <;> decide

/-- The opcode of a row as a number. -/
theorem toNat_opcOf_tableRow (i : Instr) : (opcOf (Laws.tableRow i).1).toNat = i.opcode := by
  cases i <;> simp only [Laws.tableRow, Instr.opcode] <;> decide

/-- A row's opcode is none of the reserved ones (R94). -/
theorem opcOf_lt_of_eq_tableRow {v : Word} {i : Instr} (h : opcOf v = opcOf (Laws.tableRow i).1) :
    (opcOf v).toNat < 10 := by
  rw [h, toNat_opcOf_tableRow]
  cases i <;> simp only [Instr.opcode] <;> decide

/-- A word fits a row when it has the row's opcode and no reserved bit of its own opcode's layout set (R95). -/
theorem fits_tableRow_iff (v : Word) (i : Instr) :
    v &&& (Laws.tableRow i).2 = (Laws.tableRow i).1 ↔
      opcOf v = opcOf (Laws.tableRow i).1 ∧ operandBits v &&& ~~~(fieldMask (opcOf v)) = 0 := by
  obtain ⟨hopc, hmatch, hmask⟩ := tableRow_parts i
  rw [word_eq_iff, opcOf_and, operandBits_and, hopc, hmatch, hmask, BitVec.and_allOnes]
  exact and_congr_right fun h => by rw [h]

/-- A row's opcode tells which row it is (R91). -/
theorem tableRow_eq_of_opcOf {i j : Instr} (h : opcOf (Laws.tableRow i).1 = opcOf (Laws.tableRow j).1) :
    Laws.tableRow i = Laws.tableRow j := by
  obtain ⟨hopc, hmatch, hmask⟩ := tableRow_parts i
  obtain ⟨hopc', hmatch', hmask'⟩ := tableRow_parts j
  exact Prod.ext (word_eq_iff.mpr ⟨h, hmatch.trans hmatch'.symm⟩)
    (word_eq_iff.mpr ⟨hopc.trans hopc'.symm, by rw [hmask, hmask', h]⟩)

/-- A command's word fits its row (R91). -/
theorem encode_fits_tableRow (i : Instr) : encode i &&& (Laws.tableRow i).2 = (Laws.tableRow i).1 := by
  cases i with
  | nop => exact Laws.RowBits.nop
  | init => exact Laws.RowBits.init
  | feed e => exact Laws.RowBits.feed e
  | mulx d a => exact Laws.RowBits.mulx d a
  | tgt => exact Laws.RowBits.tgt
  | unpack src n => exact Laws.RowBits.unpack src n
  | check => exact Laws.RowBits.check
  | pfxb n => exact Laws.RowBits.pfxb n
  | pfxd b => exact Laws.RowBits.pfxd b
  | clrerr => exact Laws.RowBits.clrerr

/-- The opcode and the reserved bits of a command's word. -/
theorem encode_parts (i : Instr) : opcOf (encode i) = opcOf (Laws.tableRow i).1 ∧
    operandBits (encode i) &&& ~~~(fieldMask (opcOf (encode i))) = 0 :=
  (fits_tableRow_iff _ i).mp (encode_fits_tableRow i)

/-! ### Decoding -/

/-- The opcodes 0xA to 0xF name no command, the ten others do (R91, R94). -/
theorem commandOf_eq_none_iff (v : Word) : commandOf v = none ↔ 10 ≤ (opcOf v).toNat := by
  unfold commandOf
  split
  case h_11 =>
    simp only [imp_false] at *
    simp only [true_iff]
    omega
  all_goals
    simp only [reduceCtorEq, false_iff]
    omega

theorem decode_eq_ok_iff {v : Word} {i : Instr} :
    decode v = .ok i ↔ commandOf v = some i ∧ operandBits v &&& ~~~(fieldMask (opcOf v)) = 0 := by
  refine ⟨commandOf_of_decode, fun ⟨hcmd, hreserved⟩ => ?_⟩
  simp only [decode, hcmd, if_pos hreserved]

/-- The opcode is tested before the reserved bits (R174). -/
theorem decode_of_opcode_reserved {v : Word} (h : 10 ≤ (opcOf v).toNat) : decode v = .error .illegalOpcode := by
  simp only [decode, (commandOf_eq_none_iff v).mpr h]

theorem decode_of_reserved_bit {v : Word} (hopc : (opcOf v).toNat < 10)
    (hreserved : operandBits v &&& ~~~(fieldMask (opcOf v)) ≠ 0) : decode v = .error .reservedBits := by
  cases hcmd : commandOf v with
  | none => exact absurd ((commandOf_eq_none_iff v).mp hcmd) (by omega)
  | some i => simp only [decode, hcmd, if_neg hreserved]

/-- A field of a word, bit by bit. -/
theorem extractLsb'_eq_of_bits {v : Word} {k n : Nat} {x : BitVec n}
    (h : ∀ p : Fin n, v.getLsbD (k + p) = x.getLsbD p) : v.extractLsb' k n = x := by
  apply BitVec.eq_of_getLsbD_eq
  intro p hp
  rw [BitVec.getLsbD_extractLsb', decide_eq_true hp, Bool.true_and]
  exact h ⟨p, hp⟩

/-- The fields of a command's word are read where they were written (R91, R92). -/
theorem commandOf_encode (i : Instr) : commandOf (encode i) = some i := by
  have hopc : (opcOf (encode i)).toNat = i.opcode := by rw [(encode_parts i).1, toNat_opcOf_tableRow]
  cases i with
  | nop | init | tgt | check | clrerr => rfl
  | feed e =>
    have he : (encode (.feed e)).extractLsb' 0 5 = e :=
      extractLsb'_eq_of_bits fun p => by fin_cases p <;> simp [encode]
    simp only [commandOf, hopc, Instr.opcode, he]
  | mulx d a =>
    have hd : (encode (.mulx d a)).extractLsb' 8 5 = d :=
      extractLsb'_eq_of_bits fun p => by fin_cases p <;> simp [encode]
    have ha : (encode (.mulx d a)).extractLsb' 0 5 = a :=
      extractLsb'_eq_of_bits fun p => by fin_cases p <;> simp [encode]
    simp only [commandOf, hopc, Instr.opcode, hd, ha]
  | unpack src n =>
    have hsrc : (encode (.unpack src n)).extractLsb' 8 3 = src :=
      extractLsb'_eq_of_bits fun p => by fin_cases p <;> simp [encode]
    have hn : (encode (.unpack src n)).extractLsb' 0 5 = n :=
      extractLsb'_eq_of_bits fun p => by fin_cases p <;> simp [encode]
    simp only [commandOf, hopc, Instr.opcode, hsrc, hn]
  | pfxb n =>
    have hn : (encode (.pfxb n)).extractLsb' 0 16 = n :=
      extractLsb'_eq_of_bits fun p => by fin_cases p <;> simp [encode]
    simp only [commandOf, hopc, Instr.opcode, hn]
  | pfxd b =>
    have hb : (encode (.pfxd b)).extractLsb' 0 8 = b :=
      extractLsb'_eq_of_bits fun p => by fin_cases p <;> simp [encode]
    simp only [commandOf, hopc, Instr.opcode, hb]

/-- The fields of a word, its reserved bits masked out, are those of the command it names (R91). -/
theorem operands_of_commandOf {v : Word} {i : Instr} (h : commandOf v = some i) :
    operandBits v &&& fieldMask (opcOf v) = i.operands := by
  -- Each branch of `commandOf` is compared with its opcode's layout bit by bit.
  unfold commandOf at h
  apply BitVec.eq_of_getLsbD_eq
  intro p hp
  rw [operandBits, fieldMask, BitVec.getLsbD_and, BitVec.getLsbD_extractLsb']
  split at h <;> cases h <;> rename_i hopc <;>
    simp only [hopc, Instr.operands, BitVec.getLsbD_append, BitVec.getLsbD_extractLsb'] <;>
    interval_cases p <;> simp

/-- The word that decodes to a command has its opcode and its fields, and nothing besides (R91, R95). -/
theorem parts_of_decode {v : Word} {i : Instr} (h : decode v = .ok i) :
    opcOf v = opcOf (Laws.tableRow i).1 ∧ operandBits v = i.operands := by
  obtain ⟨hcmd, hreserved⟩ := decode_eq_ok_iff.mp h
  refine ⟨opcOf_of_commandOf hcmd, ?_⟩
  calc operandBits v = operandBits v &&& (fieldMask (opcOf v) ||| ~~~(fieldMask (opcOf v))) := by
        rw [BitVec.or_not_self, BitVec.and_allOnes]
    _ = operandBits v &&& fieldMask (opcOf v) := by
        rw [BitVec.and_or_distrib_left, hreserved]
        exact BitVec.or_zero
    _ = i.operands := operands_of_commandOf hcmd

/-- Settles O1: the fields are read back from where they were written, and every other bit below the opcode is 0. -/
theorem decodeOfEncodeIsTheCommand : Obligations.DecodeOfEncodeIsTheCommand := fun i =>
  decode_eq_ok_iff.mpr ⟨commandOf_encode i, (encode_parts i).2⟩

/-- Settles O2: by O1 both words decode to the command, and a command determines the word that decodes to it. -/
theorem encodeOfDecodeIsTheWord : Obligations.EncodeOfDecodeIsTheWord := fun v i h => by
  obtain ⟨hopc, hbits⟩ := parts_of_decode h
  obtain ⟨hopc', hbits'⟩ := parts_of_decode (decodeOfEncodeIsTheCommand i)
  exact word_eq_iff.mpr ⟨hopc'.trans hopc.symm, hbits'.trans hbits.symm⟩

/-! ### Words that are no command -/

/-- Settles O3: such a word names no command (R94), and is rejected for it. -/
theorem reservedOpcodeRaisesIllegalOpcode : Obligations.ReservedOpcodeRaisesIllegalOpcode := fun v s h =>
  runCommand_of_decode_error (decode_of_opcode_reserved (by rw [toNat_opcOf]; omega)) s

/-- Settles O4: the opcode is the row's, so the word misses the row by a reserved bit alone. -/
theorem reservedBitRaisesReservedBits : Obligations.ReservedBitRaisesReservedBits := by
  intro v s row hrow hopcode hmisfit
  obtain ⟨i, rfl⟩ := exists_tableRow row hrow
  have hopc : opcOf v = opcOf (Laws.tableRow i).1 := by
    rw [← hopcode, opcOf_and]
    exact BitVec.and_allOnes.symm
  exact runCommand_of_decode_error (decode_of_reserved_bit (opcOf_lt_of_eq_tableRow hopc) fun hreserved =>
    hmisfit ((fits_tableRow_iff v i).mpr ⟨hopc, hreserved⟩)) s

/-- A word that fits a row decodes to a command (R91, R99). -/
theorem exists_decode_of_fits_tableRow {v : Word} {i : Instr}
    (h : v &&& (Laws.tableRow i).2 = (Laws.tableRow i).1) : ∃ j, decode v = .ok j := by
  obtain ⟨hopc, hreserved⟩ := (fits_tableRow_iff v i).mp h
  have hlt := opcOf_lt_of_eq_tableRow hopc
  have hsome : commandOf v ≠ none := fun hnone => absurd ((commandOf_eq_none_iff v).mp hnone) (by omega)
  obtain ⟨j, hj⟩ := Option.ne_none_iff_exists'.mp hsome
  exact ⟨j, decode_eq_ok_iff.mpr ⟨hj, hreserved⟩⟩

/-- A word that decodes to a command fits the command's row and no other (R91, R99). -/
theorem existsUnique_row_of_decode {v : Word} {i : Instr} (h : decode v = .ok i) :
    ∃! row, row ∈ opcodeTable ∧ v &&& row.2 = row.1 := by
  obtain ⟨hcmd, hreserved⟩ := decode_eq_ok_iff.mp h
  have hopc : opcOf v = opcOf (Laws.tableRow i).1 := opcOf_of_commandOf hcmd
  refine ⟨Laws.tableRow i, ⟨tableRow_mem i, (fits_tableRow_iff v i).mpr ⟨hopc, hreserved⟩⟩, ?_⟩
  rintro row ⟨hrow, hfits⟩
  obtain ⟨j, rfl⟩ := exists_tableRow row hrow
  exact tableRow_eq_of_opcOf (((fits_tableRow_iff v j).mp hfits).1.symm.trans hopc)

/-- Settles O5: by what the word decodes to; a word that fits a row decodes to a command, so one with an error fits
none. -/
theorem everyWordExecutesOrRaisesOneError : Obligations.EveryWordExecutesOrRaisesOneError := by
  intro v s
  cases h : decode v with
  | ok i => exact .inl ⟨i, rfl, runCommand_of_decode_ok h s, existsUnique_row_of_decode h⟩
  | error e =>
    refine .inr ⟨fun row hrow hfits => ?_, _, ?_, runCommand_of_decode_error h s⟩
    · obtain ⟨i, rfl⟩ := exists_tableRow row hrow
      obtain ⟨j, hj⟩ := exists_decode_of_fits_tableRow hfits
      cases h.symm.trans hj
    · cases e with
      | illegalOpcode => exact .inl rfl
      | reservedBits => exact .inr rfl

/-! ### Words as numbers -/

/-- The word of a command is the number its fields spell (R91, R92). -/
theorem toNat_encode (i : Instr) : (encode i).toNat = i.number := by
  obtain ⟨hopc, hbits⟩ := parts_of_decode (decodeOfEncodeIsTheCommand i)
  rw [Instr.number_eq, ← hbits, ← toNat_opcOf_tableRow, ← hopc, toNat_opcOf, operandBits, BitVec.extractLsb'_toNat]
  omega

theorem encode_eq_ofNat (i : Instr) : encode i = BitVec.ofNat 32 i.number := by
  rw [← toNat_encode, BitVec.ofNat_toNat, BitVec.setWidth_eq]

/-- A command's number, written as a word, decodes to the command. -/
theorem decode_ofNat_number {i : Instr} {x : Nat} (h : i.number = x) : decode (BitVec.ofNat 32 x) = .ok i := by
  rw [← h, ← encode_eq_ofNat]
  exact decodeOfEncodeIsTheCommand i

/-- Settles O6: each number is that of the command with those operands, and by O1 its word decodes to it. -/
theorem fieldsAreTheNumbersTheirBitsSpell : Obligations.FieldsAreTheNumbersTheirBitsSpell :=
  ⟨fun _ he => decode_ofNat_number (Instr.number_feed he),
    fun _ hd _ ha => decode_ofNat_number (Instr.number_mulx hd ha),
    fun _ hsrc _ hn => decode_ofNat_number (Instr.number_unpack hsrc hn),
    fun _ hn => decode_ofNat_number (Instr.number_pfxb hn),
    fun _ hb => decode_ofNat_number (Instr.number_pfxd hb)⟩

end Sys2Proof.Machine
end

section
/-! SUPPORT. UNPACK of a slot, by the register its source field selects (R96, R113). -/

namespace Sys2Proof.Machine

/-- UNPACK of a legal slot of a register reads the slot as a number (R110, R113). -/
theorem exec_unpack_of_source {s : State} {src : BitVec 3} {n : BitVec 5} {p : PackedReg}
    (hsrc : PackedReg.ofNumber src.toNat = some p) (hn : s.slotOk n = true) :
    exec (.unpack src n) s
      = .next { s with result := BitVec.ofNat 32 ((s.packed p).toNat / 2 ^ (5 * n.toNat) % 32) } := by
  have hword : (unpack (s.packed p) n.toNat).setWidth 32
      = BitVec.ofNat 32 ((s.packed p).toNat / 2 ^ (5 * n.toNat) % 32) := by
    rw [← toNat_unpack, BitVec.ofNat_toNat]
  simp only [exec, execUnpack, hsrc, hn, if_true, hword]

/-- UNPACK of the reserved source (R96). -/
theorem exec_unpack_reserved (s : State) (n : BitVec 5) : exec (.unpack 7 n) s = .next (s.rejected 3) :=
  exec_of_failure (c := .badSource) rfl

/-- Settles O25: each source value is the number of the register it selects. -/
theorem sourceFieldSelectsTheRegister : Obligations.SourceFieldSelectsTheRegister := by
  intro s n hn
  have hslot : s.slotOk n = true := (s.slotOk_iff n).mpr (.inr hn)
  exact ⟨exec_unpack_of_source (p := .residue) rfl hslot, exec_unpack_of_source (p := .target) rfl hslot,
    exec_unpack_of_source (p := .genSh 0) rfl hslot, exec_unpack_of_source (p := .genSh 1) rfl hslot,
    exec_unpack_of_source (p := .genSh 2) rfl hslot, exec_unpack_of_source (p := .genSh 3) rfl hslot,
    exec_unpack_of_source (p := .genSh 4) rfl hslot, exec_unpack_reserved s n⟩

end Sys2Proof.Machine
end

section
/-! SUPPORT. What a line of the assembly language stands for on the bus, and which operands it refuses (R100, R101). -/

namespace Sys2Proof.Machine

/-! ### Operand fields -/

theorem field_of_lt {n v : Nat} (h : v < 2 ^ n) : field n v = some (BitVec.ofNat n v) := if_pos h

theorem field_of_ge {n v : Nat} (h : 2 ^ n ≤ v) : field n v = none := if_neg (Nat.not_lt.mpr h)

/-- A value of the field's width fits the field. -/
theorem field_toNat {n : Nat} (x : BitVec n) : field n x.toNat = some x := by
  rw [field_of_lt x.isLt, BitVec.ofNat_toNat, BitVec.setWidth_eq]

/-- Operands that all fit their field. -/
theorem mapM_field_toNat {n : Nat} {α : Type} (f : BitVec n → α) (xs : List (BitVec n)) :
    (xs.map BitVec.toNat).mapM (fun v => (field n v).map f) = some (xs.map f) := by
  induction xs with
  | nil => rfl
  | cons x xs ih => simp [field_toNat, ih]

/-- One operand outside its field's range refuses the line (R100). -/
theorem mapM_field_of_ge {n : Nat} {α : Type} (f : BitVec n → α) {vs : List Nat} (h : ∃ v ∈ vs, 2 ^ n ≤ v) :
    vs.mapM (fun v => (field n v).map f) = none := by
  induction vs with
  | nil => simp at h
  | cons v vs ih =>
    rw [List.mapM_cons]
    rcases List.exists_mem_cons_iff _ _ _ |>.mp h with hv | hvs
    · simp [field_of_ge hv]
    · simp [ih hvs]

/-- An operand that is a field's only one. -/
theorem field_map_eq_ite {n : Nat} {α : Type} (f : BitVec n → α) (v : Nat) :
    (field n v).map f = if v < 2 ^ n then some (f (BitVec.ofNat n v)) else none := by
  unfold field
  split <;> rfl

/-! ### Command lines -/

/-- A command line is the write of its command's number to CMD, or is refused with its command (R100). -/
theorem events_command (m : Mnemonic) (ops : List Nat) :
    (AsmLine.command m ops).events
      = (assembleCommand m ops).map fun i => [.write .b32 0x018 (BitVec.ofNat 32 i.number)] := by
  simp only [← encode_eq_ofNat]
  cases h : assembleCommand m ops <;> simp only [AsmLine.events, h] <;> rfl

theorem assembleCommand_mulx (d a : Nat) : assembleCommand .mulx [d, a]
    = if d < 32 ∧ a < 32 then some (.mulx (BitVec.ofNat 5 d) (BitVec.ofNat 5 a)) else none := by
  by_cases hd : d < 32 <;> by_cases ha : a < 32 <;> simp [assembleCommand, field, hd, ha]

/-- UNPACK's source 7 fits its field and is still refused (R96, R100). -/
theorem assembleCommand_unpack (src n : Nat) : assembleCommand .unpack [src, n]
    = if src < 7 ∧ n < 32 then some (.unpack (BitVec.ofNat 3 src) (BitVec.ofNat 5 n)) else none := by
  by_cases hn : n < 32
  · by_cases hfield : src < 8
    · interval_cases src <;> simp [assembleCommand, field, hn, Instr.wellFormed]
    · have hsrc : ¬src < 7 := by omega
      simp [assembleCommand, field, hfield, hsrc]
  · simp [assembleCommand, field, hn]

/-- A command without operands takes none (log 17). -/
theorem assembleCommand_no_operands {m : Mnemonic} {i : Instr} (hnil : assembleCommand m [] = some i)
    (hcons : ∀ v vs, assembleCommand m (v :: vs) = none) (ops : List Nat) :
    assembleCommand m ops = if ops = [] then some i else none := by
  cases ops with
  | nil => exact hnil
  | cons v vs => exact hcons v vs

/-- A command of one operand takes just one (log 17). -/
theorem assembleCommand_of_length_ne_one {m : Mnemonic} (hm : m ∈ [Mnemonic.feed, .pfxb, .pfxd]) {ops : List Nat}
    (h : ops.length ≠ 1) : assembleCommand m ops = none := by
  simp only [List.mem_cons, List.not_mem_nil, or_false] at hm
  match ops, h with
  | [], _ => rcases hm with rfl | rfl | rfl <;> rfl
  | _ :: _ :: _, _ => rcases hm with rfl | rfl | rfl <;> rfl

/-- A command of two operands takes just two (log 17). -/
theorem assembleCommand_of_length_ne_two {m : Mnemonic} (hm : m ∈ [Mnemonic.mulx, .unpack]) {ops : List Nat}
    (h : ops.length ≠ 2) : assembleCommand m ops = none := by
  simp only [List.mem_cons, List.not_mem_nil, or_false] at hm
  match ops, h with
  | [], _ => rcases hm with rfl | rfl <;> rfl
  | [_], _ => rcases hm with rfl | rfl <;> rfl
  | _ :: _ :: _ :: _, _ => rcases hm with rfl | rfl <;> rfl

/-- A line whose operands are all in range is the write of its command's number; any other is refused (R100). -/
theorem command_line {m : Mnemonic} {ops : List Nat} {ok : Prop} [Decidable ok] {i : Instr} {word : Nat}
    (h : assembleCommand m ops = if ok then some i else none) (hword : ok → i.number = word) :
    (ok → (AsmLine.command m ops).events = some [.write .b32 0x018 (BitVec.ofNat 32 word)]) ∧
    (¬ok → (AsmLine.command m ops).events = none) := by
  refine ⟨fun hok => ?_, fun hrefused => ?_⟩
  · rw [events_command, h, if_pos hok, ← hword hok, Option.map_some]
  · rw [events_command, h, if_neg hrefused, Option.map_none]

/-- A line refused with its command. -/
theorem events_command_of_none {m : Mnemonic} {ops : List Nat} (h : assembleCommand m ops = none) :
    (AsmLine.command m ops).events = none := by
  rw [events_command, h, Option.map_none]

/-- WR is the write it names, its value kept or refused whole (R100). -/
theorem events_wr (off v : Nat) : (AsmLine.wr off v).events = (field 32 v).map fun x => [.write .b32 off x] := by
  cases h : field 32 v <;> simp [AsmLine.events, h]

/-- RD is the read it names, the value it states being of 32 bits (R100). -/
theorem events_rd_some (off v : Nat) :
    (AsmLine.rd off (some v)).events = (field 32 v).map fun _ => [.read .b32 off] := by
  cases h : field 32 v <;> simp [AsmLine.events, h]

/-- Settles O58: each command line by the value of its assembly, whose number is the word stated. -/
theorem assemblerRefusesOutOfRangeOperands : Obligations.AssemblerRefusesOutOfRangeOperands := by
  refine ⟨?nop, ?init, ?tgt, ?check, ?clrerr, ?feed, ?mulx, ?unpack, ?pfxb, ?pfxd, ?one, ?two, ?wr, ?rd⟩
  case nop | init | tgt | check | clrerr =>
    exact fun ops => command_line (assembleCommand_no_operands rfl (fun _ _ => rfl) ops) fun _ => rfl
  case feed => exact fun e => command_line (field_map_eq_ite _ e) Instr.number_feed
  case mulx => exact fun d a => command_line (assembleCommand_mulx d a) fun ⟨hd, ha⟩ => Instr.number_mulx hd ha
  case unpack =>
    exact fun src n => command_line (assembleCommand_unpack src n) fun ⟨hsrc, hn⟩ =>
      Instr.number_unpack (by omega) hn
  case pfxb => exact fun n => command_line (field_map_eq_ite _ n) Instr.number_pfxb
  case pfxd => exact fun b => command_line (field_map_eq_ite _ b) Instr.number_pfxd
  case one => exact fun m hm ops h => events_command_of_none (assembleCommand_of_length_ne_one hm h)
  case two => exact fun m hm ops h => events_command_of_none (assembleCommand_of_length_ne_two hm h)
  case wr =>
    refine fun off v => ⟨fun h => ?_, fun h => ⟨?_, ?_⟩⟩
    · rw [events_wr, field_of_lt h, Option.map_some]
    · rw [events_wr, field_of_ge h, Option.map_none]
    · rw [events_rd_some, field_of_ge h, Option.map_none]
  case rd =>
    refine fun off => ⟨rfl, fun v h => ?_⟩
    rw [events_rd_some, field_of_lt h, Option.map_some]

/-! ### Pseudo-instructions -/

/-- CMD is the write of any word to CMD (R101). -/
theorem events_cmd (v : Nat) : (AsmLine.cmd v).events = (field 32 v).map fun x => [.write .b32 0x018 x] := by
  cases h : field 32 v <;> simp [AsmLine.events, h, cmdOffset]

/-- SETCFG's word as a number: SEP at bit 8, CLEN at bit 0 (R28, R30). -/
theorem setcfg_word {c p : Nat} (hc : c < 32) (hp : p < 32) :
    ((BitVec.ofNat 5 p).setWidth 32 <<< 8) ||| (BitVec.ofNat 5 c).setWidth 32 = BitVec.ofNat 32 (256 * p + c) := by
  apply BitVec.eq_of_toNat_eq
  rw [BitVec.toNat_or, BitVec.toNat_shiftLeft, BitVec.toNat_setWidth_of_le (by decide),
    BitVec.toNat_setWidth_of_le (by decide), BitVec.toNat_ofNat, BitVec.toNat_ofNat, BitVec.toNat_ofNat,
    Nat.mod_eq_of_lt hc, Nat.mod_eq_of_lt hp, Nat.mod_eq_of_lt (by rw [Nat.shiftLeft_eq]; omega),
    ← Nat.shiftLeft_add_eq_or_of_lt (by omega), Nat.shiftLeft_eq]
  omega

/-- SETCFG is one write to CFG, both operands being in range (R101). -/
theorem events_setcfg (c p : Nat) : (AsmLine.setcfg c p).events
    = if c < 32 ∧ p < 32 then some [.write .b32 0x008 (BitVec.ofNat 32 (256 * p + c))] else none := by
  by_cases hc : c < 32
  · by_cases hp : p < 32
    · rw [if_pos ⟨hc, hp⟩, ← setcfg_word hc hp, AsmLine.events, field_of_lt (n := 5) hc, field_of_lt (n := 5) hp]
      rfl
    · simp [AsmLine.events, field, hc, hp]
  · simp [AsmLine.events, field, hc]

/-- LDPK may name TARGET and the generators (R101). -/
theorem PackedReg.writable_iff (p : PackedReg) : p.writable = true ↔ p ≠ .residue := by
  cases p <;> simp [PackedReg.writable]

/-- LDPK of a writable register is the four writes of its operand's words (R101). -/
theorem events_ldpk {p : PackedReg} (hp : p ≠ .residue) (x : BitVec 128) :
    (AsmLine.ldpk p x.toNat).events = some (loadPacked p x) := by
  simp only [AsmLine.events, field_toNat, p.writable_iff.mpr hp]
  rfl

/-- LDPK refuses the read-only RESIDUE and a value of more than 128 bits (R100, R101). -/
theorem events_ldpk_refused {p : PackedReg} {v : Nat} (h : p = .residue ∨ 2 ^ 128 ≤ v) :
    (AsmLine.ldpk p v).events = none := by
  rcases h with rfl | hv
  · cases h : field 128 v <;> simp [AsmLine.events, h, PackedReg.writable]
  · simp only [AsmLine.events, field_of_ge hv]
    rfl

/-- PREFIX of a text is PFXB with its length, then every byte twice (R101, R155). -/
theorem events_prefixOf {bytes : List Byte} (h : bytes.length < 65536) :
    (AsmLine.prefixOf (bytes.map BitVec.toNat)).events = some ((prefixCommands bytes).map commandWrite) := by
  simp only [AsmLine.events, List.length_map, field_of_lt (n := 16) h, mapM_field_toNat]
  simp [prefixCommands, Function.comp_def]

/-- PREFIX refuses a text too long for PFXB's count, and a character of more than 8 bits (R100). -/
theorem events_prefixOf_refused {bytes : List Nat} (h : 65536 ≤ bytes.length ∨ ∃ b ∈ bytes, 256 ≤ b) :
    (AsmLine.prefixOf bytes).events = none := by
  rcases h with hlen | hbyte
  · simp only [AsmLine.events, field_of_ge (n := 16) hlen]
    rfl
  · simp only [AsmLine.events, mapM_field_of_ge (n := 8) _ hbyte]
    cases field 16 bytes.length <;> rfl

/-- FEEDS of at least one operand is a FEED for each, if each is in range (R101). -/
theorem events_feeds {es : List Nat} (h : es ≠ []) :
    (AsmLine.feeds es).events = es.mapM fun v => (field 5 v).map fun e => commandWrite (.feed e) := by
  obtain ⟨e, es, rfl⟩ := List.exists_cons_of_ne_nil h
  rfl

/-- Settles O59: each expansion as its field checks leave it. -/
theorem pseudoInstructionsExpand : Obligations.PseudoInstructionsExpand := by
  refine ⟨?cmd, ?setcfg, ?packed, ?feeds, ?feedsRefused, ?prefixOf, ?prefixRefused⟩
  case cmd =>
    refine fun v => ⟨fun h => ?_, fun h => ?_⟩
    · rw [events_cmd, field_of_lt h, Option.map_some]
    · rw [events_cmd, field_of_ge h, Option.map_none]
  case setcfg =>
    exact fun c p => ⟨fun h => (events_setcfg c p).trans (if_pos h), fun h => (events_setcfg c p).trans (if_neg h)⟩
  case packed =>
    exact fun p => ⟨fun x hp => events_ldpk hp x, fun v => events_ldpk_refused, rfl⟩
  case feeds =>
    intro es hes
    rw [events_feeds (by simpa using hes)]
    exact mapM_field_toNat _ es
  case feedsRefused =>
    intro es hbig
    have hes : es ≠ [] := by
      rintro rfl
      simp at hbig
    rw [events_feeds hes]
    exact mapM_field_of_ge _ hbig
  case prefixOf => exact fun bytes => events_prefixOf
  case prefixRefused => exact fun bytes => events_prefixOf_refused

end Sys2Proof.Machine
end

section
/-! SUPPORT. The commands of the packed field vector unit: UNPACK (R113), and MULX bit by bit, slot by slot and as a
polynomial (R111, R112, R114). -/

namespace Sys2Proof.Machine

/-! ### The rules' example words -/

/-- Settles O7: each word is the number of its command, so by O1 it decodes to it. -/
theorem exampleWordsDecodeToTheirCommands : Obligations.ExampleWordsDecodeToTheirCommands :=
  ⟨decode_ofNat_number (i := .nop) rfl, decode_ofNat_number (i := .init) rfl, decode_ofNat_number (i := .feed 20) rfl,
    decode_ofNat_number (i := .mulx 3 5) rfl, decode_ofNat_number (i := .tgt) rfl,
    decode_ofNat_number (i := .unpack 2 5) rfl, decode_ofNat_number (i := .check) rfl,
    decode_ofNat_number (i := .pfxb 2) rfl, decode_ofNat_number (i := .pfxd 0x61) rfl,
    decode_ofNat_number (i := .clrerr) rfl⟩

/-! ### UNPACK -/

/-- A packed register is found by its number (R96). -/
theorem PackedReg.ofNumber_number (p : PackedReg) : PackedReg.ofNumber p.number = some p := by
  cases p with
  | residue | target => rfl
  | genSh i => fin_cases i <;> rfl

/-- Every source but 7 selects a register (R96). -/
theorem exists_ofNumber_of_ne_seven {src : BitVec 3} (h : src ≠ 7) : ∃ p, PackedReg.ofNumber src.toNat = some p := by
  refine Option.ne_none_iff_exists'.mp fun hnone => h (BitVec.eq_of_toNat_eq ?_)
  have hge := (PackedReg.ofNumber_eq_none_iff _).mp hnone
  have hlt := src.isLt
  show src.toNat = 7
  omega

/-- Settles O24: the source is checked first, then the slot (R174), and then the slot is read. -/
theorem unpackReadsOneSlot : Obligations.UnpackReadsOneSlot := by
  refine ⟨fun src n => toNat_encode (.unpack src n), fun v s => ?word, fun s n => exec_unpack_reserved s n,
    fun s src n hsrc hw hn => ?slotRange, fun s p src n hsrc hn => ?reads⟩
  case word => exact reservedBitRaisesReservedBits v s (0x50000000, 0xFFFFF8E0) (tableRow_mem (.unpack 0 0))
  case slotRange =>
    obtain ⟨p, hp⟩ := exists_ofNumber_of_ne_seven hsrc
    have hslot : ¬ s.slotOk n = true := fun h => by
      rw [s.slotOk_iff] at h
      omega
    exact exec_of_failure (c := .slotRange) (by simp only [State.failure, hp, if_neg hslot])
  case reads => exact exec_unpack_of_source (hsrc ▸ p.ofNumber_number) ((s.slotOk_iff n).mpr hn)

/-! ### The shift of `mulx` -/

/-- `mulx` at width 0 is a no-op returning 0, the width given by an equation (R111). -/
theorem mulx_of_width_eq_zero {w : Nat} (hw : w = 0) (v : BitVec w) (d : Nat) (a : FieldElem) :
    mulx v d a = (v, 0) :=
  if_pos hw

section
variable {w d : Nat} (hd : 1 ≤ d) (v : BitVec w) (a : FieldElem)

include hd

/-- The bits of the shifted vector, by the slot they lie in: `a` in slot 0, 0 in slot `d`, and elsewhere the old bits five
places up (R111). -/
theorem getLsbD_mulx_fst_of_lt {p : Nat} (hp : p < w) :
    (mulx v d a).1.getLsbD p
      = if p < 5 then a.getLsbD p else if 5 * d ≤ p ∧ p < 5 * d + 5 then false else v.getLsbD (p - 5) := by
  rw [getLsbD_mulx_fst (by omega), decide_eq_true hp, Bool.true_and, ← Bool.decide_and]
  by_cases hentry : p < 5
  · rw [if_pos hentry, if_pos hentry]
  · have hzeroed : (5 * (d - 1) ≤ p - 5 ∧ p - 5 < 5 * (d - 1) + 5) ↔ (5 * d ≤ p ∧ p < 5 * d + 5) := by omega
    rw [if_neg hentry, if_neg hentry, decide_eq_decide.mpr hzeroed]
    split
    case isTrue hslot => rw [decide_eq_true hslot, Bool.not_true, Bool.and_false]
    case isFalse hslot => rw [decide_eq_false hslot, Bool.not_false, Bool.and_true]

/-- The entering element stands in slot 0 (R112). -/
theorem unpack_mulx_fst_zero (hw : 5 ≤ w) : unpack (mulx v d a).1 0 = a := by
  ext i hi
  rw [getElem_unpack, getLsbD_mulx_fst_of_lt hd v a (by omega), if_pos (by omega), Nat.mul_zero, Nat.zero_add,
    BitVec.getLsbD_eq_getElem hi]

/-- Nothing moves into slot `d` (R112). -/
theorem unpack_mulx_fst_degree (hdw : d < w / 5) : unpack (mulx v d a).1 d = 0 := by
  ext i hi
  rw [getElem_unpack, getLsbD_mulx_fst_of_lt hd v a (by omega), if_neg (by omega), if_pos (by omega)]
  exact (BitVec.getElem_zero hi).symm

/-- Every other slot takes the one below it (R112). -/
theorem unpack_mulx_fst_of_ne {n : Nat} (hn : 1 ≤ n) (hnw : n < w / 5) (hne : n ≠ d) :
    unpack (mulx v d a).1 n = unpack v (n - 1) := by
  refine unpack_ext fun i hi => ?_
  rw [getLsbD_mulx_fst_of_lt hd v a (by omega), if_neg (by omega), if_neg (by omega)]
  congr 1
  omega

/-- The pad bits take the low bits of the top slot, or 0 where that slot is the dropped one (R112). -/
theorem getLsbD_mulx_fst_pad (hdw : d ≤ w / 5) {p : Nat} (hp : p < w) (hpad : 5 * (w / 5) ≤ p) :
    (mulx v d a).1.getLsbD p
      = if d < w / 5 then (unpack v (w / 5 - 1)).getLsbD (p - 5 * (w / 5)) else false := by
  rw [getLsbD_mulx_fst_of_lt hd v a hp, if_neg (by omega)]
  by_cases hlt : d < w / 5
  · have hbit : p - 5 * (w / 5) < 5 := by omega
    rw [if_neg (by omega), if_pos hlt, getLsbD_unpack, decide_eq_true hbit, Bool.true_and]
    congr 1
    omega
  · rw [if_pos (by omega), if_neg hlt]

end

/-! ### MULX -/

/-- A width at which some degree is legal has room for a slot (R9). -/
theorem PackedWidth.five_le_bits {w : PackedWidth} {d : Nat} (hd : 1 ≤ d) (hdw : d ≤ w.slots) : 5 ≤ w.bits := by
  rw [PackedWidth.slots] at hdw
  omega

/-- MULX at a degree that passes the check writes the two results of `mulx` (R114). -/
theorem exec_mulx_of_degreeOk {s : State} {d : BitVec 5} (hd : s.degreeOk d = true) (a : BitVec 5) :
    exec (.mulx d a) s = .next { s with
      residue := (mulx s.residue d.toNat a).1, result := (mulx s.residue d.toNat a).2.setWidth 32 } :=
  if_pos hd

/-- Settles O26: a degree outside 1..WIDTH fails the check; one within it shifts by a slot, and RESULT is the dropped slot
as a number. -/
theorem mulxShiftsByOneSlot : Obligations.MulxShiftsByOneSlot := by
  refine ⟨fun d a => toNat_encode (.mulx d a), fun v s => ?word, fun s d a hw hd => ?degreeRange,
    fun s d a hw => ?null, fun s d a hd hdw => ?shifts⟩
  case word => exact reservedBitRaisesReservedBits v s (0x30000000, 0xFFFFE0E0) (tableRow_mem (.mulx 0 0))
  case degreeRange =>
    exact exec_of_failure (c := .degreeRange) (if_neg (Bool.eq_false_iff.mp (State.degreeOk_false hw hd)))
  case null =>
    rw [exec_mulx_of_degreeOk (State.degreeOk_null hw d), mulx_of_width_eq_zero hw]
    rfl
  case shifts =>
    have hw : 5 ≤ s.width.bits := PackedWidth.five_le_bits hd hdw
    have hok : s.degreeOk d = true := (s.degreeOk_iff d).mpr (.inr ⟨hd, hdw⟩)
    refine ⟨(mulx s.residue d.toNat a).1, ?_, fun p hp => getLsbD_mulx_fst_of_lt hd s.residue a hp⟩
    rw [exec_mulx_of_degreeOk hok, mulx_snd (by omega), ← toNat_unpack, BitVec.ofNat_toNat]

/-- Settles O28: the seven rows of R115's table, evaluated. -/
theorem mulxCornerValues : Obligations.MulxCornerValues := by
  unfold Obligations.MulxCornerValues
  decide

/-! ### `mulx` as a polynomial -/

section
open Polynomial

variable {K : Type*} [CommRing K] (α : K) {w : Nat}

/-- The polynomial of a value below degree `c` stops at degree `c` (R15). -/
theorem packedPoly_of_highClear {c : Nat} (hc : c ≤ w / 5) {v : BitVec w} (hv : highClear v c) :
    packedPoly α v = ∑ n ∈ Finset.range c, C (fieldValue α (unpack v n)) * X ^ n := by
  refine (Finset.sum_subset (Finset.range_subset_range.mpr hc) fun n hn hnc => ?_).symm
  have hslot : unpack v n = 0 := hv.1 n (Finset.mem_range.mp hn) (by simpa using hnc)
  simp [hslot, fieldValue]

/-- On a value below degree `d`, `mulx` multiplies by `x` what is left without the dropped term, and adds `a` (R112). -/
theorem packedPoly_mulx_fst {d : Nat} (hd : 1 ≤ d) (hdw : d ≤ w / 5) {v : BitVec w} (hv : highClear v d)
    (a : FieldElem) :
    packedPoly α (mulx v d a).1
      = X * (packedPoly α v - C (fieldValue α (unpack v (d - 1))) * X ^ (d - 1)) + C (fieldValue α a) := by
  rw [packedPoly_of_highClear α hdw (highClear_mulx hd hdw hv a), packedPoly_of_highClear α hdw hv]
  obtain ⟨k, rfl⟩ : ∃ k, d = k + 1 := ⟨d - 1, by omega⟩
  rw [Finset.sum_range_succ', Finset.sum_range_succ, Nat.add_sub_cancel, add_sub_cancel_right, Finset.mul_sum,
    unpack_mulx_fst_zero hd v a (by omega), pow_zero, mul_one]
  refine congrArg (· + _) (Finset.sum_congr rfl fun n hn => ?_)
  have hnk : n < k := Finset.mem_range.mp hn
  rw [unpack_mulx_fst_of_ne hd v a (by omega) (by omega) (by omega), Nat.add_sub_cancel]
  ring

end

/-- Settles O27: the lemmas above, which hold of a value of any number of bits, at the four packed widths. -/
theorem mulxSlotBySlot : Obligations.MulxSlotBySlot := by
  intro w v d a hw hd hdw
  exact ⟨mulx_snd hw v d a, unpack_mulx_fst_zero hd v a (PackedWidth.five_le_bits hd hdw),
    fun hlt => unpack_mulx_fst_degree hd v a hlt, fun n hn hnw hne => unpack_mulx_fst_of_ne hd v a hn hnw hne,
    fun p hp hpad => getLsbD_mulx_fst_pad hd v a hdw hp hpad,
    fun hv K _ α => packedPoly_mulx_fst α hd hdw hv a⟩

end Sys2Proof.Machine
end

section
/-! SUPPORT. The arithmetic of CHECK and of the division step (R12, R120, R126): the field product, field doubling, what the
doubling relation says of the generator registers slot by slot, and FEED as a step of long division (R130). -/

namespace Sys2Proof.Machine

/-! ### The field product as conditional exclusive ors -/

/-- The five conditional exclusive ors, seen through a map that adds up over exclusive ors. -/
theorem map_addGenerators {w v : Nat} {f : BitVec w → BitVec v} (hf : ∀ x y, f (x ^^^ y) = f x ^^^ f y)
    (gen : Fin 5 → BitVec w) (m : FieldElem) (t : BitVec w) :
    f (addGenerators gen m t) = addGenerators (fun i => f (gen i)) m (f t) := by
  have one : ∀ (b : Bool) (x g : BitVec w), f (if b then x ^^^ g else x) = if b then f x ^^^ f g else f x :=
    fun b x g => by rw [← hf, apply_ite f]
  simp only [addGenerators, List.foldl_cons, List.foldl_nil, one]

/-- With one bit set in the coefficient, one generator is added (R126). -/
theorem addGenerators_two_pow {w : Nat} (gen : Fin 5 → BitVec w) (i : Fin 5) :
    addGenerators gen (BitVec.ofNat 5 (2 ^ i.val)) 0 = gen i := by
  fin_cases i <;> simp [addGenerators]

/-- Conditional exclusive ors with one value add up over their conditions and the vectors. -/
theorem ite_xor_xor {w : Nat} (a b : Bool) (x y g : BitVec w) :
    (if a ^^ b then (x ^^^ y) ^^^ g else x ^^^ y) = (if a then x ^^^ g else x) ^^^ (if b then y ^^^ g else y) := by
  cases a <;> cases b
  · rfl
  · exact BitVec.xor_assoc x y g
  · show x ^^^ y ^^^ g = x ^^^ g ^^^ y
    ac_rfl
  · have hpair : (x ^^^ g) ^^^ (y ^^^ g) = (x ^^^ y) ^^^ (g ^^^ g) := by ac_rfl
    show x ^^^ y = (x ^^^ g) ^^^ (y ^^^ g)
    rw [hpair, BitVec.xor_self, BitVec.xor_zero]

/-- Reduction adds up over exclusive ors (R12). -/
theorem reduceField_xor (p q : BitVec 9) : reduceField (p ^^^ q) = reduceField p ^^^ reduceField q := by
  simp only [reduceField, List.foldl_cons, List.foldl_nil, BitVec.getLsbD_xor, ite_xor_xor, BitVec.setWidth_xor]

/-- The product of an element and α^i, reduced once, is the element doubled `i` times (R12, R120). -/
theorem reduceField_shiftLeft : ∀ (i : Fin 5) (c : FieldElem),
    reduceField (c.setWidth 9 <<< i.val) = double^[i.val] c := by decide

/-- The field product by `m` adds the element doubled `i` times for each bit `i` of `m` (R126). -/
theorem fieldMul_eq_addGenerators (m c : FieldElem) :
    fieldMul m c = addGenerators (fun i => double^[i.val] c) m 0 := by
  have hproduct : carrylessMul m c = addGenerators (fun i => c.setWidth 9 <<< i.val) m 0 := rfl
  rw [fieldMul, hproduct, map_addGenerators reduceField_xor]
  simp only [reduceField_shiftLeft]
  rfl

/-- The product by α^i doubles `i` times (R120, R126). -/
theorem fieldMul_two_pow (i : Fin 5) (c : FieldElem) : fieldMul (BitVec.ofNat 5 (2 ^ i.val)) c = double^[i.val] c := by
  rw [fieldMul_eq_addGenerators, addGenerators_two_pow]

/-! ### Doubling -/

/-- The product by 20, the inverse of α, undoes doubling (R120). -/
theorem fieldMul_double : Function.LeftInverse (fieldMul 20) double := by
  unfold Function.LeftInverse
  decide

theorem double_injective : Function.Injective double := fieldMul_double.injective

/-- Settles O29: the product by α^1, bijectivity by the inverse on a finite type, the formula and the table by
evaluation. -/
theorem doubleIsMultiplicationByAlpha : Obligations.DoubleIsMultiplicationByAlpha := by
  refine ⟨fun c => (fieldMul_two_pow 1 c).symm, ?formula, ?table, Finite.injective_iff_bijective.mp double_injective⟩
  case formula => decide
  case table => decide

/-! ### The doubling relation -/

section
variable {w slots j : Nat} {gen : Fin 5 → BitVec w} (h : doublesEverywhere slots gen) (hj : j < slots)

include h hj

/-- Under the doubling relation a slot of GEN_SH`i` is that of GEN_SH0 doubled `i` times (R121, R126). -/
theorem unpack_gen_eq_iterate_double (i : Fin 5) : unpack (gen i) j = double^[i.val] (unpack (gen 0) j) := by
  induction i using Fin.induction with
  | zero => rfl
  | succ i ih =>
    rw [h i j hj, ih, Fin.val_succ, Function.iterate_succ_apply', Fin.val_castSucc]

/-- Under the doubling relation the conditional exclusive ors add the product by the coefficient to each slot (R126). -/
theorem unpack_addGenerators_of_doubles (m : FieldElem) (t : BitVec w) :
    unpack (addGenerators gen m t) j = unpack t j ^^^ fieldMul m (unpack (gen 0) j) := by
  have hslots : (fun i => unpack (gen i) j) = fun i : Fin 5 => double^[i.val] (unpack (gen 0) j) :=
    funext (unpack_gen_eq_iterate_double h hj)
  rw [addGenerators_eq_xor, unpack_xor, map_addGenerators (f := (unpack · j)) (fun u v => unpack_xor u v j),
    hslots, unpack_zero, fieldMul_eq_addGenerators]

end

/-- Settles O34: both are the doubled slots of GEN_SH0, one of them or those of the bits of `m`. -/
theorem generatorTableMultipliesByFieldElements : Obligations.GeneratorTableMultipliesByFieldElements := by
  refine fun s h j hj => ⟨fun i => ?_, fun m => ?_⟩
  · exact (unpack_gen_eq_iterate_double h hj i).trans (fieldMul_two_pow i _).symm
  · rw [unpack_addGenerators_of_doubles h hj, unpack_zero]
    exact BitVec.zero_xor

/-! ### FEED as a step of long division -/

/-- A FEED whose degree passes the check performs one division step (R130, R132). -/
theorem exec_feed_of_degreeOk {s : State} (hd : s.degreeOk s.clen = true) (e : FieldElem) :
    exec (.feed e) s = .next (s.feed e) :=
  if_pos hd

/-- The slots of a shifted vector (R112). -/
theorem unpack_mulx_fst {w d n : Nat} (hd : 1 ≤ d) (hn : n < w / 5) (v : BitVec w) (a : FieldElem) :
    unpack (mulx v d a).1 n = if n = 0 then a else if n = d then 0 else unpack v (n - 1) := by
  split_ifs with hzero hdegree
  · rw [hzero, unpack_mulx_fst_zero hd v a (by omega)]
  · rw [hdegree, unpack_mulx_fst_degree hd v a (by omega)]
  · exact unpack_mulx_fst_of_ne hd v a (by omega) hn hdegree

/-- Settles O37: the shift slot by slot, and the dropped coefficient's multiple of the generator added to it. -/
theorem feedAddsTheDroppedMultipleOfTheGenerator : Obligations.FeedAddsTheDroppedMultipleOfTheGenerator := by
  intro s e h hc hcw
  have hw : 5 ≤ s.width.bits := PackedWidth.five_le_bits hc hcw
  refine ⟨_, exec_feed_of_degreeOk ((s.degreeOk_iff s.clen).mpr (.inr ⟨hc, hcw⟩)) e, fun n hn => ?_⟩
  rw [divStep, unpack_addGenerators_of_doubles h hn, mulx_snd (by omega), unpack_mulx_fst hc hn]
  rfl

end Sys2Proof.Machine
end

section
/-! SUPPORT. CHECK: the first failure it finds (R123), the word that names it (R124), and what one flipped bit of a
generator register does to the verdict (C9); and that no command reads CFG_OK (R125). -/

namespace Sys2Proof.Machine

/-! ### The first failing pair -/

/-- The order in which CHECK tries the pairs (relation, slot) (R123). -/
def triedBefore (p q : Fin 4 × Nat) : Prop := p.1 < q.1 ∨ (p.1 = q.1 ∧ p.2 < q.2)

/-- CHECK tries the relations in ascending order, and each at the slots in ascending order (R123). -/
theorem doublingPairs_pairwise (slots : Nat) : (doublingPairs slots).Pairwise triedBefore := by
  refine List.pairwise_flatMap.mpr ⟨fun i _ => ?sameRelation, ?laterRelation⟩
  case sameRelation =>
    exact List.pairwise_map.mpr (List.pairwise_lt_range.imp fun hlt => .inr ⟨rfl, hlt⟩)
  case laterRelation =>
    have hasc : ([0, 1, 2, 3] : List (Fin 4)).Pairwise (· < ·) := by decide
    refine hasc.imp fun hlt p hp q hq => ?_
    obtain ⟨_, _, rfl⟩ := List.mem_map.mp hp
    obtain ⟨_, _, rfl⟩ := List.mem_map.mp hq
    exact .inl hlt

/-- In a list ordered by `R`, an element with a property that none before it has is the first that has it. -/
theorem find?_eq_some_of_pairwise {α : Type*} {R : α → α → Prop} {l : List α} (hl : l.Pairwise R) {f : α → Bool}
    {x : α} (hx : x ∈ l) (hfx : f x = true) (hfirst : ∀ y ∈ l, R y x → f y = false) : l.find? f = some x := by
  induction l with
  | nil => exact absurd hx List.not_mem_nil
  | cons y l ih =>
    obtain ⟨hy, hl⟩ := List.pairwise_cons.mp hl
    rcases List.mem_cons.mp hx with rfl | hxl
    · exact List.find?_cons_of_pos hfx
    · have hfy : f y = false := hfirst y List.mem_cons_self (hy x hxl)
      rw [List.find?_cons_of_neg (by simp [hfy])]
      exact ih hl hxl fun z hz => hfirst z (List.mem_cons_of_mem y hz)

/-! ### The word CHECK reports -/

section
variable {w slots clen : Nat} {gen : Fin 5 → BitVec w}

/-- The first pair that fails is the one CHECK reports (R123, R124). -/
theorem checkWord_of_first_failure (hlen : clen ≤ slots) {i : Fin 4} {j : Nat} (hj : j < slots)
    (hfail : unpack (gen i.succ) j ≠ double (unpack (gen i.castSucc) j))
    (hfirst : ∀ (i' : Fin 4) (j' : Nat), j' < slots → (i' < i ∨ (i' = i ∧ j' < j)) →
      unpack (gen i'.succ) j' = double (unpack (gen i'.castSucc) j')) :
    checkWord slots clen gen = doublingFailure (i.val + 1) j := by
  have hfind : (doublingPairs slots).find? (fun p => !doublesAt gen p.1 p.2) = some (i, j) := by
    refine find?_eq_some_of_pairwise (doublingPairs_pairwise slots) (mem_doublingPairs.mpr hj) ?_ fun p hp hbefore => ?_
    · simpa [doublesAt] using hfail
    · simpa [doublesAt] using hfirst p.1 p.2 (mem_doublingPairs.mp hp) hbefore
  rw [checkWord, if_neg (Nat.not_lt.mpr hlen), hfind]

/-- A configuration of legal length outside the doubling relation is reported with some relation and slot (R123). -/
theorem exists_checkWord_eq_doublingFailure (hlen : clen ≤ slots) (hnot : ¬ doublesEverywhere slots gen) :
    ∃ (i : Fin 4) (j : Nat), j < slots ∧ checkWord slots clen gen = doublingFailure (i.val + 1) j := by
  have hne : checkWord slots clen gen ≠ 0 := fun hzero => hnot ((checkWord_eq_zero_iff slots clen gen).mp hzero).2
  rw [checkWord, if_neg (Nat.not_lt.mpr hlen)] at hne ⊢
  cases hfind : (doublingPairs slots).find? fun p => !doublesAt gen p.1 p.2 with
  | none => simp [hfind] at hne
  | some p => exact ⟨p.1, p.2, mem_doublingPairs.mp (List.mem_of_find?_eq_some hfind), rfl⟩

end

/-- The failure word of a relation and a slot as a number, its fields as place values (R124). -/
theorem doublingFailure_eq_ofNat (i : Fin 4) {j : Nat} (hj : j < 256) :
    doublingFailure (i.val + 1) j = BitVec.ofNat 32 (0x40000000 + 256 * (i.val + 1) + j) := by
  have hslot : 0x40000000 + 256 * (i.val + 1) + j = 2 ^ 8 * (0x400000 + (i.val + 1)) + j := by omega
  rw [hslot, Nat.two_pow_add_eq_or_of_lt hj, BitVec.ofNat_or, doublingFailure]
  congr 1
  fin_cases i <;> rfl

/-- No packed register has more than 25 slots (R9). -/
theorem PackedWidth.slots_le (w : PackedWidth) : w.slots ≤ 25 := by
  cases w <;> decide

/-! ### CHECK -/

/-- CHECK leaves the verdict of the word it reports (R123). -/
theorem exec_check_of_diagnostic {s : State} {x : Word} (h : s.diagnostic = x) :
    exec .check s = .next (s.setVerdict x) :=
  h ▸ rfl

section
variable {s : State}

/-- CHECK passes a configuration that meets the length condition and the doubling relation (R123). -/
theorem exec_check_of_doublingRelation (hlen : s.lengthCondition) (h : s.doublingRelation) :
    exec .check s = .next { s with cfgOk := true, result := 0 } := by
  have hword : s.diagnostic = 0 := (checkWord_eq_zero_iff _ _ _).mpr ⟨hlen, h⟩
  exact exec_check_of_diagnostic hword

/-- CHECK reports the relation and the slot its word names (R124). -/
theorem exec_check_of_doublingFailure {i : Fin 4} {j : Nat} (hj : j < s.width.slots)
    (hword : s.diagnostic = doublingFailure (i.val + 1) j) :
    exec .check s
      = .next { s with cfgOk := false, result := BitVec.ofNat 32 (0x40000000 + 256 * (i.val + 1) + j) } := by
  have hslots := PackedWidth.slots_le s.width
  rw [exec_check_of_diagnostic hword, State.setVerdict, beq_false_of_ne (doublingFailure_ne_zero _ _),
    doublingFailure_eq_ofNat i (by omega)]

/-- CHECK fails a configuration of legal length outside the doubling relation, with the mark of a relation in RESULT
(R123, R124). -/
theorem exec_check_of_not_doublingRelation (hlen : s.lengthCondition) (hnot : ¬ s.doublingRelation) :
    ∃ t, exec .check s = .next t ∧ t.cfgOk = false ∧ 0x40000000 < t.result.toNat := by
  obtain ⟨i, j, hj, hword⟩ := exists_checkWord_eq_doublingFailure hlen hnot
  have hslots := PackedWidth.slots_le s.width
  refine ⟨_, exec_check_of_doublingFailure hj hword, rfl, ?_⟩
  rw [BitVec.toNat_ofNat]
  omega

end

/-- Settles O30: the verdict by the length, by the doubling relation, or by the first pair that fails. -/
theorem checkReportsTheFirstFailure : Obligations.CheckReportsTheFirstFailure := by
  refine ⟨rfl, fun v s hopcode hne => ?word, fun s => ⟨fun hlen => ?length, exec_check_of_doublingRelation,
    fun hlen i j hj hfail hfirst => ?relation⟩⟩
  case word =>
    refine reservedBitRaisesReservedBits v s (0x60000000, 0xFFFFFFFF) (tableRow_mem .check) hopcode ?_
    rwa [show (0xFFFFFFFF : Word) = BitVec.allOnes 32 from rfl, BitVec.and_allOnes]
  case length =>
    have hword : s.diagnostic = lengthFailure := if_pos hlen
    exact exec_check_of_diagnostic hword
  case relation => exact exec_check_of_doublingFailure hj (checkWord_of_first_failure hlen hj hfail hfirst)

/-! ### One flipped bit -/

/-- The slot a single bit lies in is not 0. -/
theorem unpack_twoPow_ne_zero {w p : Nat} (hp : p < w) : unpack (BitVec.twoPow w p) (p / 5) ≠ 0 := by
  intro hzero
  have hbit := congrArg (·.getLsbD (p % 5)) hzero
  have hlt : p % 5 < 5 := Nat.mod_lt p (by decide)
  simp [hlt, Nat.div_add_mod, hp] at hbit

/-- Every slot a single bit does not lie in is 0. -/
theorem unpack_twoPow_of_ne {w p n : Nat} (hn : n ≠ p / 5) : unpack (BitVec.twoPow w p) n = 0 := by
  ext i hi
  have hne : p ≠ 5 * n + i := by omega
  simp [BitVec.getLsbD_twoPow, hne]

section
variable {w slots : Nat} {gen : Fin 5 → BitVec w} (h : doublesEverywhere slots gen) (i : Fin 5) {x : BitVec w} {j : Nat}

include h

/-- A difference in one slot of one generator register breaks the doubling relation: GEN_SH0's breaks relation 1, and
GEN_SH`k+1`'s the one with GEN_SH`k` (R121). -/
theorem not_doublesEverywhere_update (hj : j < slots) (hx : unpack x j ≠ 0) :
    ¬ doublesEverywhere slots (Function.update gen i (gen i ^^^ x)) := by
  intro hflipped
  cases i using Fin.cases with
  | zero =>
    have hrel : unpack (gen 1) j = double (unpack (gen 0 ^^^ x) j) := hflipped 0 j hj
    have hsame : unpack (gen 0) j ^^^ unpack x j = unpack (gen 0) j := by
      rw [← unpack_xor]
      exact double_injective (hrel.symm.trans (h 0 j hj))
    exact hx (xor_left_eq_self_iff.mp hsame)
  | succ k =>
    have hrel := hflipped k j hj
    rw [Function.update_self, Function.update_of_ne k.castSucc_lt_succ.ne, unpack_xor, ← h k j hj] at hrel
    exact hx (xor_left_eq_self_iff.mp hrel)

/-- A difference outside the slots leaves the doubling relation as it is (R123, C9). -/
theorem doublesEverywhere_update (hx : ∀ j < slots, unpack x j = 0) :
    doublesEverywhere slots (Function.update gen i (gen i ^^^ x)) := by
  have hslot : ∀ (k : Fin 5), ∀ j < slots, unpack (Function.update gen i (gen i ^^^ x) k) j = unpack (gen k) j := by
    intro k j hj
    by_cases hk : k = i
    · subst hk
      rw [Function.update_self, unpack_xor, hx j hj]
      exact BitVec.xor_zero
    · rw [Function.update_of_ne hk]
  intro k j hj
  rw [hslot _ j hj, hslot _ j hj]
  exact h k j hj

end

/-- The doubling relation after a generator register is written. -/
theorem State.doublingRelation_setGen (s : State) (i : Fin 5) (v : BitVec s.width.bits) :
    (s.setGen i v).doublingRelation ↔ doublesEverywhere s.width.slots (Function.update s.gen i v) := by
  rw [← State.gen_setGen]
  rfl

/-- Settles O31: a slot bit is a difference in its slot alone, and a pad bit one in no slot. -/
theorem flippedSlotBitFailsTheCheck : Obligations.FlippedSlotBitFailsTheCheck := by
  intro s i p hlen h hp flipped
  have hflipped : flipped.doublingRelation ↔ doublesEverywhere s.width.slots
      (Function.update s.gen i (s.gen i ^^^ BitVec.twoPow s.width.bits p)) := s.doublingRelation_setGen i _
  refine ⟨fun hslot => exec_check_of_not_doublingRelation hlen ?_, fun hpad =>
    ⟨_, exec_check_of_doublingRelation hlen ?_, rfl, rfl⟩⟩
  · rw [hflipped]
    exact not_doublesEverywhere_update h i (by omega) (unpack_twoPow_ne_zero hp)
  · rw [hflipped]
    exact doublesEverywhere_update h i fun j hj => unpack_twoPow_of_ne (by omega)

/-! ### No command reads CFG_OK -/

/-- The state with another CFG_OK (R34): the other value a command must not notice. -/
def State.setCfgOk (s : State) (b : Bool) : State := { s with cfgOk := b }

/-- The checks of a command do not read CFG_OK (R125). -/
theorem State.failure_setCfgOk (s : State) (b : Bool) (i : Instr) : (s.setCfgOk b).failure i = s.failure i := by
  cases i <;> rfl

/-- The pseudocode of a command other than CHECK does not read CFG_OK, and keeps it (R34, R125). -/
theorem State.perform_setCfgOk (s : State) (b : Bool) {i : Instr} (hi : i ≠ .check) :
    (s.setCfgOk b).perform i = (s.perform i).setCfgOk b := by
  cases i with
  | nop | init | feed | mulx | tgt | unpack | clrerr => rfl
  | check => exact absurd rfl hi
  | pfxb | pfxd =>
    simp only [State.perform, apply_ite (fun t : State => t.setCfgOk b)]
    rfl

/-- A command other than CHECK, run with another CFG_OK, ends as without, but for that value (R125). -/
theorem exec_setCfgOk {i : Instr} (hi : i ≠ .check) (s : State) (b : Bool) :
    exec i (s.setCfgOk b) = mapNext (·.setCfgOk b) (exec i s) := by
  rw [exec_eq, exec_eq, s.failure_setCfgOk, s.perform_setCfgOk b hi]
  cases s.failure i <;> rfl

/-- Settles O32: the checks and the pseudocode pass CFG_OK by, and CHECK's verdict overwrites it. -/
theorem noCommandReadsCfgOk : Obligations.NoCommandReadsCfgOk := fun _ s b =>
  ⟨fun hi => exec_setCfgOk hi s b, rfl⟩

end Sys2Proof.Machine
end

section
/-! SUPPORT. The residue accumulator: INIT (R131), FEED and lists of FEEDs (R130, R132, R137), TGT (R133), and what
is left of the commands at width 0 (R138). -/

namespace Sys2Proof.Machine

/-! ### Words without operands -/

/-- Another word with the opcode of a command that takes no operand has a reserved bit set (R95). -/
theorem runCommand_of_no_operand {i : Instr} (hi : (Laws.tableRow i).2 = 0xFFFFFFFF) {v : Word}
    (hopcode : v &&& 0xF0000000 = (Laws.tableRow i).1) (hne : v ≠ (Laws.tableRow i).1) (s : State) :
    runCommand v s = .next (s.rejected 2) := by
  refine reservedBitRaisesReservedBits v s (Laws.tableRow i) (tableRow_mem i) hopcode ?_
  rwa [hi, show (0xFFFFFFFF : Word) = BitVec.allOnes 32 from rfl, BitVec.and_allOnes]

/-! ### INIT -/

/-- INIT loads ONE and puts the sequencer to rest (R131). -/
theorem exec_init (s : State) : exec .init s = .next { s.seqIdle with residue := 1#s.width.bits } := rfl

/-- Settles O35: INIT's RESIDUE is that of reset. -/
theorem initStartsANewComputation : Obligations.InitStartsANewComputation :=
  ⟨rfl, fun s => ⟨_, exec_init s, State.residue_resetOf s.width⟩,
    fun _ s hopcode hne => runCommand_of_no_operand (i := .init) rfl hopcode hne s⟩

/-! ### FEED -/

/-- A FEED whose degree fails the check is rejected (R132). -/
theorem exec_feed_of_degreeRange {s : State} (hw : 0 < s.width.bits) (hc : s.clen = 0 ∨ s.width.slots < s.clen.toNat)
    (e : FieldElem) : exec (.feed e) s = .next (s.rejected 6) :=
  exec_of_failure (c := .degreeRange) (if_neg (Bool.eq_false_iff.mp (State.degreeOk_false hw hc)))

/-- At width 0 RESIDUE has one value, so writing it changes nothing (R138). -/
theorem State.residue_update_null {s : State} (hw : s.width.bits = 0) (r : BitVec s.width.bits) :
    { s with residue := r } = s := by
  rw [BitVec.eq_of_zero_length hw (x := r) (y := s.residue)]

/-- At width 0 a FEED does nothing (R138). -/
theorem exec_feed_null {s : State} (hw : s.width.bits = 0) (e : FieldElem) : exec (.feed e) s = .next s := by
  rw [exec_feed_of_degreeOk (State.degreeOk_null hw s.clen), State.feed, State.residue_update_null hw]

/-- The bits of a residue after a division step: those of the shifted vector, and of each GEN_SH`i` whose bit of the dropped
slot is 1 (R130). -/
theorem getLsbD_divStep_of_lt {w c : Nat} (hc : 1 ≤ c) (gen : Fin 5 → BitVec w) (r : BitVec w) (e : FieldElem) {p : Nat}
    (hp : p < w) :
    (divStep gen c r e).getLsbD p
      = ((if p < 5 then e.getLsbD p else if 5 * c ≤ p ∧ p < 5 * c + 5 then false else r.getLsbD (p - 5))
        ^^ (r.getLsbD (5 * (c - 1) + 0) && (gen 0).getLsbD p) ^^ (r.getLsbD (5 * (c - 1) + 1) && (gen 1).getLsbD p)
        ^^ (r.getLsbD (5 * (c - 1) + 2) && (gen 2).getLsbD p) ^^ (r.getLsbD (5 * (c - 1) + 3) && (gen 3).getLsbD p)
        ^^ (r.getLsbD (5 * (c - 1) + 4) && (gen 4).getLsbD p)) := by
  simp [divStep, getLsbD_addGenerators, mulx_snd (Nat.zero_lt_of_lt hp), getLsbD_mulx_fst_of_lt hc r e hp]

/-- Settles O36: CLEN fails the check, W is 0, or the step is that of `divStep`, bit by bit. -/
theorem feedIsOneDivisionStep : Obligations.FeedIsOneDivisionStep := by
  refine ⟨fun e => toNat_encode (.feed e), fun v s => ?word, fun s e hw hc => exec_feed_of_degreeRange hw hc e,
    fun s e hw => exec_feed_null hw e, fun s e hc hcw => ?step⟩
  case word => exact reservedBitRaisesReservedBits v s (0x20000000, 0xFFFFFFE0) (tableRow_mem (.feed 0))
  case step =>
    have hok : s.degreeOk s.clen = true := (s.degreeOk_iff s.clen).mpr (.inr ⟨hc, hcw⟩)
    exact ⟨_, exec_feed_of_degreeOk hok e, fun p hp => getLsbD_divStep_of_lt hc s.gen s.residue e hp⟩

/-! ### Lists of FEEDs -/

/-- A list of commands runs its first, then the others (R73). -/
theorem execAll_cons {i : Instr} {s t : State} (h : exec i s = .next t) (is : List Instr) :
    execAll (i :: is) s = execAll is t := by
  simp only [execAll, h]

/-- FEEDs at a legal CLEN leave the residue of their division steps, and nothing else changes (R137). -/
theorem execAll_feeds {s : State} (hok : s.degreeOk s.clen = true) (es : List FieldElem) :
    execAll (es.map .feed) s = .next { s with residue := feedAll s.gen s.clen.toNat s.residue es } := by
  induction es generalizing s with
  | nil => rfl
  | cons e es ih => exact (execAll_cons (exec_feed_of_degreeOk hok e) _).trans (ih (s := s.feed e) hok)

/-- Division steps are taken one list after the other (R137). -/
theorem feedAll_append {w : Nat} (gen : Fin 5 → BitVec w) (c : Nat) (r : BitVec w) (as bs : List FieldElem) :
    feedAll gen c r (as ++ bs) = feedAll gen c (feedAll gen c r as) bs :=
  List.foldl_append

/-! ### TGT -/

/-- TGT at a legal CLEN leaves the residue of the division steps with TARGET's slots (R133). -/
theorem exec_tgt_of_degreeOk {s : State} (hok : s.degreeOk s.clen = true) :
    exec .tgt s
      = .next { s with residue := feedAll s.gen s.clen.toNat s.residue (slotsDown s.target s.clen.toNat) } := by
  rw [feedAll, slotsDown, ← divSlots_eq_foldl]
  exact if_pos hok

/-- At width 0 TGT does nothing (R138). -/
theorem exec_tgt_null {s : State} (hw : s.width.bits = 0) : exec .tgt s = .next s := by
  rw [exec_tgt_of_degreeOk (State.degreeOk_null hw s.clen), State.residue_update_null hw]

/-- Settles O38: TGT and the FEEDs of TARGET's slots take the same division steps. -/
theorem tgtFeedsTheTargetSlots : Obligations.TgtFeedsTheTargetSlots := by
  refine ⟨rfl, fun v s hopcode hne => runCommand_of_no_operand (i := .tgt) rfl hopcode hne s, fun s hw hc => ?degreeRange,
    fun s hw => exec_tgt_null hw, fun s hc hcw => ?feeds⟩
  case degreeRange =>
    exact exec_of_failure (c := .degreeRange) (if_neg (Bool.eq_false_iff.mp (State.degreeOk_false hw hc)))
  case feeds =>
    have hok : s.degreeOk s.clen = true := (s.degreeOk_iff s.clen).mpr (.inr ⟨hc, hcw⟩)
    exact ⟨_, exec_tgt_of_degreeOk hok, execAll_feeds hok _⟩

/-! ### PFXB -/

/-- PFXB 0 at a legal CLEN feeds the separator and puts the sequencer to rest (R152). -/
theorem exec_pfxb_zero_of_degreeOk {s : State} (hok : s.degreeOk s.clen = true) :
    exec (.pfxb 0) s = .next (s.feed s.sep).seqIdle :=
  if_pos hok

/-- PFXB of a positive count begins the high pass, whatever CLEN is (R152). -/
theorem exec_pfxb_of_ne_zero {n : BitVec 16} (hn : n ≠ 0) (s : State) :
    exec (.pfxb n) s = .next { s with phase := .hi, seqLen := n, seqIdx := 0 } :=
  if_neg hn

/-! ### Width 0 -/

section
variable {s : State} (hw : s.width.bits = 0)

include hw

/-- At width 0 no word of a packed register exists (R68, R138). -/
theorem State.readReg_packedWord_null (p : PackedReg) (k : Nat) : s.readReg (.packedWord p k) = 0 :=
  getWord_absent (by omega) (s.packed p)

/-- At width 0 MULX drops 0 (R138, C7). -/
theorem exec_mulx_null (d a : BitVec 5) : exec (.mulx d a) s = .next { s with result := 0 } := by
  rw [exec_mulx_of_degreeOk (State.degreeOk_null hw d), mulx_of_width_eq_zero hw]
  rfl

/-- At width 0 UNPACK of a register reads 0 (R138, C7). -/
theorem exec_unpack_null {src : BitVec 3} (hsrc : src ≠ 7) (n : BitVec 5) :
    exec (.unpack src n) s = .next { s with result := 0 } := by
  obtain ⟨p, hp⟩ := exists_ofNumber_of_ne_seven hsrc
  rw [exec_unpack_of_source hp ((s.slotOk_iff n).mpr (.inl hw)), BitVec.toNat_of_zero_length hw, Nat.zero_div]
  rfl

/-- At width 0 CHECK passes: CLEN reads 0 and there are no slots (R138, C7). -/
theorem exec_check_null : exec .check s = .next { s with cfgOk := true, result := 0 } := by
  have hslots : s.width.slots = 0 := by rw [PackedWidth.slots, hw]
  have hlength : s.lengthCondition := by simp [State.lengthCondition, State.clen_null hw]
  have hdoubles : s.doublingRelation := fun _ j hj => absurd hj (by omega)
  exact exec_check_of_doublingRelation hlength hdoubles

/-- At width 0 PFXB 0 only puts the sequencer to rest (R138, R152). -/
theorem exec_pfxb_zero_null :
    exec (.pfxb 0) s = .next { s with phase := .idle, seqLen := 0, seqIdx := 0 } := by
  rw [exec_pfxb_zero_of_degreeOk (State.degreeOk_null hw s.clen), State.feed, State.residue_update_null hw]
  rfl

end

/-- Settles O43: no command changes W, a value of no bits is 0, and the commands one by one. -/
theorem nullInstanceIsInert : Obligations.NullInstanceIsInert := by
  refine fun s hw => ⟨fun i t ht => ?_, exec_feed_null hw, exec_tgt_null hw, exec_mulx_null hw,
    fun src n hsrc => exec_unpack_null hw hsrc n, exec_check_null hw, exec_pfxb_zero_null hw⟩
  obtain ⟨hwidth, -⟩ := commandsKeepTheirFrame i s t ht
  have hwt : t.width.bits = 0 := by rw [hwidth, hw]
  exact ⟨(BitVec.toNat_of_zero_length hwt _).trans (BitVec.toNat_of_zero_length hw _).symm,
    fun k => ⟨State.readReg_packedWord_null hwt _ k, State.readReg_packedWord_null hwt _ k⟩⟩

end Sys2Proof.Machine
end

section
/-! SUPPORT. What PFXB and the two passes of PFXD leave (R150 to R153), and with it the validity rule (R135) and the
checksum round trip (R136). -/

namespace Sys2Proof.Machine

/-! ### PFXD -/

section
variable {s : State} (hok : s.degreeOk s.clen = true)

include hok

/-- PFXD at a legal CLEN performs its pass (R153). -/
theorem exec_pfxd_of_hi (hp : s.phase = .hi) (b : Byte) : exec (.pfxd b) s = .next (s.prefixHigh b) := by
  simp only [exec, execPfxd, hp, hok, if_true]

theorem exec_pfxd_of_lo (hp : s.phase = .lo) (b : Byte) : exec (.pfxd b) s = .next (s.prefixLow b) := by
  simp only [exec, execPfxd, hp, hok, if_true]

end

/-! ### The two passes -/

/-- The elements of a byte are its number over 32 and modulo 32 (R150). -/
theorem highElem_eq (b : Byte) : highElem b = BitVec.ofNat 5 (b.toNat / 32) := by
  have hb := b.isLt
  apply BitVec.eq_of_toNat_eq
  simp only [highElem, BitVec.toNat_setWidth, BitVec.extractLsb'_toNat, BitVec.toNat_ofNat, Nat.shiftRight_eq_div_pow]
  omega

theorem lowElem_eq (b : Byte) : lowElem b = BitVec.ofNat 5 (b.toNat % 32) := by
  apply BitVec.eq_of_toNat_eq
  simp [lowElem, BitVec.extractLsb'_toNat]

/-- The element a byte yields in a pass (R150, R153). -/
def passElem : Phase → Byte → FieldElem
  | .lo => lowElem
  | _ => highElem

/-- The contribution of R150 is the elements of the high pass, the separator, and those of the low pass. -/
theorem prefixContribution_eq (sep : FieldElem) (bytes : List Byte) :
    prefixContribution sep bytes = bytes.map (passElem .hi) ++ sep :: bytes.map (passElem .lo) := by
  have hhigh : passElem .hi = fun b => BitVec.ofNat 5 (b.toNat / 32) := funext highElem_eq
  have hlow : passElem .lo = fun b => BitVec.ofNat 5 (b.toNat % 32) := funext lowElem_eq
  simp [prefixContribution, hhigh, hlow]

/-- A block in a pass over `n` bytes, `k` of them delivered (R37). -/
def State.inPass (s : State) (r : BitVec s.width.bits) (p : Phase) (n k : Nat) : State :=
  { s with residue := r, phase := p, seqLen := BitVec.ofNat 16 n, seqIdx := BitVec.ofNat 16 k }

/-- A block whose sequencer is at rest, with a residue (R37). -/
def State.atRest (s : State) (r : BitVec s.width.bits) : State := { s.seqIdle with residue := r }

/-- The last byte of a pass is its `n`-th (R153). -/
theorem State.lastOfPass_inPass (s : State) (r : BitVec s.width.bits) (p : Phase) {n k : Nat} (hn : n < 65536)
    (hk : k < n) : (s.inPass r p n k).lastOfPass = decide (k + 1 = n) := by
  have hcount : BitVec.ofNat 16 k + 1 = BitVec.ofNat 16 n ↔ k + 1 = n := by
    rw [← BitVec.toNat_inj, BitVec.toNat_add]
    simp only [BitVec.toNat_ofNat, show (1 : BitVec 16).toNat = 1 from rfl]
    omega
  exact decide_eq_decide.mpr hcount

section
variable {s : State} (hok : s.degreeOk s.clen = true) (r : BitVec s.width.bits) {p : Phase} {n : Nat} (hn : n < 65536)

include hok hn

/-- A byte before the last of its pass feeds its element (R153). -/
theorem exec_pfxd_inPass (hp : p ≠ .idle) {k : Nat} (hk : k + 1 < n) (b : Byte) :
    exec (.pfxd b) (s.inPass r p n k) = .next (s.inPass (divStep s.gen s.clen.toNat r (passElem p b)) p n (k + 1)) := by
  have hlast : (s.inPass r p n k).lastOfPass = false := by
    rw [s.lastOfPass_inPass r p hn (by omega), decide_eq_false (by omega)]
  have hcount : BitVec.ofNat 16 k + 1 = BitVec.ofNat 16 (k + 1) := (BitVec.ofNat_add k 1).symm
  cases p with
  | idle => exact absurd rfl hp
  | hi =>
    rw [exec_pfxd_of_hi (s := s.inPass r .hi n k) hok rfl, State.prefixHigh, hlast]
    simp only [State.inPass, hcount]
    rfl
  | lo =>
    rw [exec_pfxd_of_lo (s := s.inPass r .lo n k) hok rfl, State.prefixLow, hlast]
    simp only [State.inPass, hcount]
    rfl

/-- Bytes that do not end their pass feed their elements (R153). -/
theorem execAll_pfxd_inPass (hp : p ≠ .idle) (bytes : List Byte) {k : Nat} (hk : k + bytes.length < n) :
    execAll (bytes.map .pfxd) (s.inPass r p n k)
      = .next (s.inPass (feedAll s.gen s.clen.toNat r (bytes.map (passElem p))) p n (k + bytes.length)) := by
  induction bytes generalizing r k with
  | nil => rfl
  | cons b bytes ih =>
    rw [List.length_cons] at hk
    rw [List.map_cons, execAll_cons (exec_pfxd_inPass hok r hn hp (by omega) b), ih _ (by omega), List.length_cons,
      Nat.add_right_comm, ← Nat.add_assoc]
    rfl

/-- The last byte of the high pass feeds its element and the separator, and the low pass begins (R153). -/
theorem exec_pfxd_endHigh {k : Nat} (hk : k + 1 = n) (b : Byte) :
    exec (.pfxd b) (s.inPass r .hi n k)
      = .next (s.inPass (feedAll s.gen s.clen.toNat r [passElem .hi b, s.sep]) .lo n 0) := by
  have hlast : (s.inPass r .hi n k).lastOfPass = true := by
    rw [s.lastOfPass_inPass r .hi hn (by omega), decide_eq_true hk]
  rw [exec_pfxd_of_hi (s := s.inPass r .hi n k) hok rfl, State.prefixHigh, hlast]
  rfl

/-- The last byte of the low pass feeds its element, and the sequence is over (R153). -/
theorem exec_pfxd_endLow {k : Nat} (hk : k + 1 = n) (b : Byte) :
    exec (.pfxd b) (s.inPass r .lo n k) = .next (s.atRest (divStep s.gen s.clen.toNat r (passElem .lo b))) := by
  have hlast : (s.inPass r .lo n k).lastOfPass = true := by
    rw [s.lastOfPass_inPass r .lo hn (by omega), decide_eq_true hk]
  rw [exec_pfxd_of_lo (s := s.inPass r .lo n k) hok rfl, State.prefixLow, hlast]
  rfl

end

section
variable {s : State} (hok : s.degreeOk s.clen = true) (r : BitVec s.width.bits) (init : List Byte) (last : Byte)
  (hn : init.length + 1 < 65536)

include hok hn

/-- The high pass feeds the high element of every byte, then the separator (R150, R153). -/
theorem execAll_highPass :
    execAll ((init ++ [last]).map .pfxd) (s.inPass r .hi (init.length + 1) 0)
      = .next (s.inPass (feedAll s.gen s.clen.toNat r ((init ++ [last]).map (passElem .hi) ++ [s.sep]))
          .lo (init.length + 1) 0) := by
  rw [List.map_append, execAll_append _ _ _ _ (execAll_pfxd_inPass hok r hn (by decide) init (by omega)),
    List.map_singleton, execAll_cons (exec_pfxd_endHigh hok _ hn (by omega) last), ← feedAll_append, List.map_append,
    List.map_singleton, List.append_assoc]
  rfl

/-- The low pass feeds the low element of every byte, and the sequence is over (R150, R153). -/
theorem execAll_lowPass :
    execAll ((init ++ [last]).map .pfxd) (s.inPass r .lo (init.length + 1) 0)
      = .next (s.atRest (feedAll s.gen s.clen.toNat r ((init ++ [last]).map (passElem .lo)))) := by
  rw [List.map_append, execAll_append _ _ _ _ (execAll_pfxd_inPass hok r hn (by decide) init (by omega)),
    List.map_singleton, execAll_cons (exec_pfxd_endLow hok _ hn (by omega) last), List.map_append, List.map_singleton,
    feedAll_append]
  rfl

end

/-- Bytes delivered by PFXB and PFXD at a legal CLEN leave the residue of their contribution, the sequencer at rest, and
nothing else changed (R150, R151). -/
theorem execAll_prefixCommands {s : State} (hok : s.degreeOk s.clen = true) {bytes : List Byte}
    (hbytes : bytes.length < 65536) :
    execAll (prefixCommands bytes) s
      = .next (s.atRest (feedAll s.gen s.clen.toNat s.residue (prefixContribution s.sep bytes))) := by
  rcases List.eq_nil_or_concat bytes with rfl | ⟨init, last, rfl⟩
  · exact execAll_cons (exec_pfxb_zero_of_degreeOk hok) []
  · rw [List.concat_eq_append] at hbytes ⊢
    have hlength : (init ++ [last]).length = init.length + 1 := List.length_append
    rw [hlength] at hbytes
    have hcount : BitVec.ofNat 16 (init.length + 1) ≠ 0 := by
      rw [Ne, ← BitVec.toNat_inj, BitVec.toNat_ofNat, Nat.mod_eq_of_lt hbytes]
      exact Nat.succ_ne_zero _
    have hbegin : exec (.pfxb (BitVec.ofNat 16 (init.length + 1))) s
        = .next (s.inPass s.residue .hi (init.length + 1) 0) := exec_pfxb_of_ne_zero hcount s
    rw [prefixCommands, hlength, execAll_cons hbegin,
      execAll_append _ _ _ _ (execAll_highPass hok s.residue init last hbytes),
      execAll_lowPass hok _ init last hbytes, ← feedAll_append, prefixContribution_eq, List.append_assoc,
      List.singleton_append]

/-! ### Lists of division steps -/

section
variable {w : Nat} (gen : Fin 5 → BitVec w) (c : Nat)

/-- Division steps add up over residues: one residue takes zeros, the other the elements. -/
theorem feedAll_xor (hw : 0 < w) (u v : BitVec w) (es : List FieldElem) :
    feedAll gen c (u ^^^ v) es = feedAll gen c u (List.replicate es.length 0) ^^^ feedAll gen c v es := by
  induction es generalizing u v with
  | nil => rfl
  | cons e es ih =>
    have hstep : divStep gen c (u ^^^ v) e = divStep gen c u 0 ^^^ divStep gen c v e := by
      rw [← divStep_xor hw, show (0 : FieldElem) ^^^ e = e from BitVec.zero_xor]
    exact (congrArg (feedAll gen c · es) hstep).trans (ih _ _)

variable {gen c} (hc1 : 1 ≤ c) (hc : c ≤ w / 5)

include hc1 hc

/-- Division steps at degree `c` keep a residue below degree `c` (R44). -/
theorem highClear_feedAll (hgen : ∀ i, highClear (gen i) c) {r : BitVec w} (hr : highClear r c) (es : List FieldElem) :
    highClear (feedAll gen c r es) c := by
  induction es generalizing r with
  | nil => exact hr
  | cons e es ih => exact ih (highClear_divStep hc1 hc hgen hr e)

/-- A value below degree `c`, moved down past its lower `k + 1` slots, takes slot `k` back in: the step drops a 0. -/
theorem divStep_ushiftRight {v : BitVec w} (hv : highClear v c) {k : Nat} :
    divStep gen c (v >>> (5 * (k + 1))) (unpack v k) = v >>> (5 * k) := by
  rw [highClear_iff hc] at hv
  have hdropped : unpack (v >>> (5 * (k + 1))) (c - 1) = 0 := by
    ext i hi
    simpa using hv _ (by omega)
  rw [divStep, mulx_snd (by omega), hdropped, addGenerators_zero]
  apply BitVec.eq_of_getLsbD_eq
  intro p hp
  rw [getLsbD_mulx_fst_of_lt hc1 _ _ hp]
  split_ifs with hentry hslot
  · simp [hentry]
  · simp [hv (5 * k + p) (by omega)]
  · simp only [BitVec.getLsbD_ushiftRight]
    congr 1
    omega

/-- The slots of a value below degree `c`, fed to 0 from the top one down, build the value up: no step drops anything. -/
theorem feedAll_zero_slotsDown {v : BitVec w} (hv : highClear v c) : feedAll gen c 0 (slotsDown v c) = v := by
  have hbuild (k : Nat) : feedAll gen c (v >>> (5 * k)) (slotsDown v k) = v := by
    induction k with
    | zero => exact BitVec.ushiftRight_zero v
    | succ k ih =>
      have hslots : slotsDown v (k + 1) = unpack v k :: slotsDown v k := by simp [slotsDown, List.range_succ]
      rw [hslots]
      exact (congrArg (feedAll gen c · (slotsDown v k)) (divStep_ushiftRight hc1 hc hv)).trans ih
  have habove : v >>> (5 * c) = 0 := by
    apply BitVec.eq_of_getLsbD_eq
    intro p _
    simpa using (highClear_iff hc v).mp hv (5 * c + p) (by omega)
  rw [← habove, hbuild]

/-- Feeding a residue the slots of a value adds the value to what `c` zeros would leave (R133, R136). -/
theorem feedAll_slotsDown (r : BitVec w) {v : BitVec w} (hv : highClear v c) :
    feedAll gen c r (slotsDown v c) = feedAll gen c r (List.replicate c 0) ^^^ v := by
  calc feedAll gen c r (slotsDown v c)
      = feedAll gen c (r ^^^ 0) (slotsDown v c) := by rw [show r ^^^ 0 = r from BitVec.xor_zero]
    _ = feedAll gen c r (List.replicate (slotsDown v c).length 0) ^^^ feedAll gen c 0 (slotsDown v c) :=
        feedAll_xor gen c (by omega) r 0 _
    _ = feedAll gen c r (List.replicate c 0) ^^^ v := by
        rw [feedAll_zero_slotsDown hc1 hc hv]
        simp [slotsDown]

/-- The slots of what a target's slots leave, fed to the same residue, leave the target (R136). -/
theorem feedAll_slotsDown_slotsDown (hgen : ∀ i, highClear (gen i) c) {r v : BitVec w} (hr : highClear r c)
    (hv : highClear v c) : feedAll gen c r (slotsDown (feedAll gen c r (slotsDown v c)) c) = v := by
  rw [feedAll_slotsDown hc1 hc r (highClear_feedAll hc1 hc hgen hr _), feedAll_slotsDown hc1 hc r hv,
    ← BitVec.xor_assoc, BitVec.xor_self, BitVec.zero_xor]

end

/-! ### A whole computation -/

/-- FEEDs at a legal CLEN keep the sequencer at rest (R137). -/
theorem execAll_feeds_atRest {s : State} (hok : s.degreeOk s.clen = true) (r : BitVec s.width.bits)
    (es : List FieldElem) :
    execAll (es.map .feed) (s.atRest r) = .next (s.atRest (feedAll s.gen s.clen.toNat r es)) :=
  execAll_feeds (s := s.atRest r) hok es

/-- TGT at a legal CLEN keeps the sequencer at rest (R133). -/
theorem exec_tgt_atRest {s : State} (hok : s.degreeOk s.clen = true) (r : BitVec s.width.bits) :
    exec .tgt (s.atRest r) = .next (s.atRest (feedAll s.gen s.clen.toNat r (slotsDown s.target s.clen.toNat))) :=
  exec_tgt_of_degreeOk (s := s.atRest r) hok

/-- INIT, bytes delivered and FEEDs at a legal CLEN leave RESIDUE as R135 computes it, the sequencer at rest, and nothing
else changed. -/
theorem execAll_codeword {s : State} (hok : s.degreeOk s.clen = true) {bytes : List Byte}
    (hbytes : bytes.length < 65536) (symbols : List FieldElem) :
    execAll (.init :: (prefixCommands bytes ++ symbols.map .feed)) s
      = .next (s.atRest (s.residueOf (prefixContribution s.sep bytes ++ symbols))) := by
  have hprefix : execAll (prefixCommands bytes) (s.atRest 1) =
      .next (s.atRest (feedAll s.gen s.clen.toNat 1 (prefixContribution s.sep bytes))) :=
    execAll_prefixCommands (s := s.atRest 1) hok hbytes
  rw [execAll_cons (t := s.atRest 1) (exec_init s), execAll_append _ _ _ _ hprefix, execAll_feeds_atRest hok,
    State.residueOf, feedAll_append]

/-- Settles O55: the run leaves the residue of the bytes' contribution and the symbols, and writes nothing else but the
sequencer. -/
theorem validCodewordsAreThoseThatReachTheTarget : Obligations.ValidCodewordsAreThoseThatReachTheTarget := by
  intro s bytes symbols hc hbytes
  have hok : s.degreeOk s.clen = true := (s.degreeOk_iff s.clen).mpr hc
  exact ⟨_, execAll_codeword hok hbytes symbols, BitVec.toNat_inj, rfl, rfl, rfl, rfl, rfl, rfl⟩

/-- Settles O56: both runs come to one residue before the checksum; TGT generates the symbols from it, and they bring it to
TARGET. -/
theorem generatedChecksumVerifies : Obligations.GeneratedChecksumVerifies := by
  intro s bytes payload hconfig htarget hbytes
  obtain ⟨⟨hc1, hc⟩, hgen⟩ := hconfig
  have hok : s.degreeOk s.clen = true := (s.degreeOk_iff s.clen).mpr (.inr ⟨hc1, hc⟩)
  have hbefore := execAll_codeword hok hbytes payload
  refine ⟨_, _, (execAll_append _ _ _ _ hbefore).trans (execAll_cons (exec_tgt_atRest hok _) []),
    (execAll_append _ _ _ _ hbefore).trans (execAll_feeds_atRest hok _ _), congrArg BitVec.toNat ?_, rfl, rfl⟩
  have hresidue : highClear (s.residueOf (prefixContribution s.sep bytes ++ payload)) s.clen.toNat :=
    highClear_feedAll hc1 hc hgen (highClear_one hc1 hc) _
  exact feedAll_slotsDown_slotsDown hc1 hc hgen hresidue htarget

end Sys2Proof.Machine
end

section
/-! SUPPORT. The ring element of a field element (R12), the polynomial of a packed value (R15), and division steps as
polynomial long division (R126, R139), over the rings of log 22. -/

namespace Sys2Proof.Machine

open Polynomial

/-! ### The value of a field element -/

/-- The bits of a doubled element: one place up, the bit that leaves added at places 0 and 3 (R120). -/
theorem getLsbD_double : ∀ c : FieldElem,
    (double c).getLsbD 0 = c.getLsbD 4 ∧ (double c).getLsbD 1 = c.getLsbD 0 ∧ (double c).getLsbD 2 = c.getLsbD 1 ∧
    (double c).getLsbD 3 = (c.getLsbD 2 ^^ c.getLsbD 4) ∧ (double c).getLsbD 4 = c.getLsbD 3 := by decide

section
variable {K : Type*} [CommRing K] (α : K)

/-- The element 1 stands for 1 (R12). -/
theorem fieldValue_one : fieldValue α 1 = 1 := by
  simp [fieldValue]

variable (htwo : (2 : K) = 0)

include htwo

/-- Over characteristic 2 a term taken once for each of two bits is taken for their exclusive or. -/
theorem ite_xor_eq_add (a b : Bool) (x : K) :
    (if a ^^ b then x else 0) = (if a then x else 0) + if b then x else 0 := by
  have hdouble : x + x = 0 := by rw [← two_mul, htwo, zero_mul]
  cases a <;> cases b <;> simp [hdouble]

/-- Over characteristic 2 the exclusive or stands for the sum (R12). -/
theorem fieldValue_xor (a b : FieldElem) : fieldValue α (a ^^^ b) = fieldValue α a + fieldValue α b := by
  simp only [fieldValue, BitVec.getLsbD_xor, ite_xor_eq_add htwo, Finset.sum_add_distrib]

/-- The conditional exclusive ors stand for the sum of the generators whose bit is set (R130). -/
theorem fieldValue_addGenerators (gen : Fin 5 → FieldElem) (m t : FieldElem) :
    fieldValue α (addGenerators gen m t)
      = fieldValue α t + ∑ i : Fin 5, if m.getLsbD i.val then fieldValue α (gen i) else 0 := by
  have hterm (b : Bool) (x g : FieldElem) :
      fieldValue α (if b then x ^^^ g else x) = fieldValue α x + if b then fieldValue α g else 0 := by
    cases b
    · exact (add_zero _).symm
    · exact fieldValue_xor α htwo x g
  simp only [addGenerators, List.foldl_cons, List.foldl_nil, hterm, Fin.sum_univ_five, add_assoc]

variable (hroot : α ^ 5 + α ^ 3 + 1 = 0)

include hroot

/-- Doubling stands for the product by α (R12, R120). -/
theorem fieldValue_double (c : FieldElem) : fieldValue α (double c) = α * fieldValue α c := by
  obtain ⟨h0, h1, h2, h3, h4⟩ := getLsbD_double c
  have hreduce : α ^ 5 = α ^ 3 + α ^ 0 := by linear_combination hroot - (α ^ 3 + 1) * htwo
  simp only [fieldValue, Fin.sum_univ_five, Fin.coe_ofNat_eq_mod, Nat.reduceMod, h0, h1, h2, h3, h4, mul_add, mul_ite,
    mul_zero, ← pow_succ', Nat.reduceAdd, hreduce, ite_add_zero, ite_xor_eq_add htwo]
  ring

/-- Doubling `i` times stands for the product by α^i (R120). -/
theorem fieldValue_iterate_double (i : Nat) (c : FieldElem) :
    fieldValue α (double^[i] c) = α ^ i * fieldValue α c := by
  induction i with
  | zero => simp
  | succ i ih => rw [Function.iterate_succ_apply', fieldValue_double α htwo hroot, ih, pow_succ', mul_assoc]

/-- The field product stands for the product (R12, R126). -/
theorem fieldValue_fieldMul (m c : FieldElem) :
    fieldValue α (fieldMul m c) = fieldValue α m * fieldValue α c := by
  have hzero : fieldValue α 0 = 0 := by simp [fieldValue]
  rw [fieldMul_eq_addGenerators, fieldValue_addGenerators α htwo, hzero, zero_add, fieldValue, Finset.sum_mul]
  simp only [fieldValue_iterate_double α htwo hroot, ite_mul, zero_mul]

end

/-! ### Polynomials of packed values -/

section
variable {K : Type*} [CommRing K] (α : K) {w c : Nat}

/-- ONE is the polynomial 1 (R23). -/
theorem packedPoly_one (hw : 1 ≤ w / 5) : packedPoly α (1 : BitVec w) = 1 := by
  have hslot : unpack (1 : BitVec w) 0 = 1 := by
    apply BitVec.eq_of_toNat_eq
    have hlt : 1 < 2 ^ w := Nat.one_lt_two_pow (by omega)
    simp [toNat_unpack, Nat.mod_eq_of_lt hlt]
  have hone : highClear (1 : BitVec w) 1 := highClear_one le_rfl hw
  rw [packedPoly_of_highClear α hw hone, Finset.sum_range_one, hslot, fieldValue_one, C_1, pow_zero, mul_one]

/-- A value below degree `c` is a polynomial of degree below `c` (R15, R44). -/
theorem degree_packedPoly_lt (hc : c ≤ w / 5) {v : BitVec w} (hv : highClear v c) : (packedPoly α v).degree < c := by
  rw [packedPoly_of_highClear α hc hv, Finset.sum_range]
  exact degree_sum_fin_lt _

/-- The polynomial of one more leading element (R139). -/
theorem messagePoly_cons (e : FieldElem) (es : List FieldElem) :
    messagePoly α (e :: es)
      = X ^ (es.length + 1) + C (fieldValue α e) * X ^ es.length + (messagePoly α es - X ^ es.length) := by
  rw [messagePoly, messagePoly, add_sub_cancel_left, add_assoc]
  refine congrArg (X ^ (es.length + 1) + ·) ((Fin.sum_univ_succ _).trans (congrArg₂ (· + ·) rfl ?_))
  refine Finset.sum_congr rfl fun i _ => ?_
  have hpower : (e :: es).length - 1 - i.succ.val = es.length - 1 - i.val := by
    rw [List.length_cons, Fin.val_succ]
    omega
  rw [hpower]
  rfl

end

/-! ### Long division -/

/-- The generator polynomial is its leading power and the polynomial of GEN_SH0 (R126). -/
theorem State.generatorPoly_eq {K : Type*} [CommRing K] (α : K) {s : State} (h : s.configWellFormed) :
    s.generatorPoly α = X ^ s.clen.toNat + packedPoly α s.genSh0 := by
  obtain ⟨⟨-, hc⟩, hgen⟩ := h
  rw [← s.gen_zero, packedPoly_of_highClear α hc (hgen 0)]
  rfl

/-- The generator polynomial is monic of degree CLEN (R126). -/
theorem State.monic_generatorPoly {K : Type*} [CommRing K] (α : K) {s : State} (h : s.configWellFormed) :
    (s.generatorPoly α).Monic := by
  rw [State.generatorPoly_eq α h]
  obtain ⟨⟨-, hc⟩, hgen⟩ := h
  exact monic_X_pow_add (degree_packedPoly_lt α hc (hgen 0))

theorem State.degree_generatorPoly {K : Type*} [CommRing K] [Nontrivial K] (α : K) {s : State}
    (h : s.configWellFormed) : (s.generatorPoly α).degree = s.clen.toNat := by
  have ⟨⟨_, hc⟩, hgen⟩ := h
  have hlower : (packedPoly α s.genSh0).degree < (X ^ s.clen.toNat : K[X]).degree := by
    rw [degree_X_pow]
    exact degree_packedPoly_lt α hc (hgen 0)
  rw [State.generatorPoly_eq α h, degree_add_eq_left_of_degree_lt hlower, degree_X_pow]

section
variable {K : Type*} [CommRing K] (α : K) (htwo : (2 : K) = 0) (hroot : α ^ 5 + α ^ 3 + 1 = 0)

include htwo hroot

/-- Under the doubling relation the conditional exclusive ors add a multiple of the polynomial of GEN_SH0 (R126). -/
theorem packedPoly_addGenerators {w : Nat} {gen : Fin 5 → BitVec w} (h : doublesEverywhere (w / 5) gen) (m : FieldElem)
    (t : BitVec w) :
    packedPoly α (addGenerators gen m t) = packedPoly α t + C (fieldValue α m) * packedPoly α (gen 0) := by
  simp only [packedPoly, Finset.mul_sum, ← Finset.sum_add_distrib]
  refine Finset.sum_congr rfl fun n hn => ?_
  rw [unpack_addGenerators_of_doubles h (Finset.mem_range.mp hn), fieldValue_xor α htwo,
    fieldValue_fieldMul α htwo hroot, C_add, C_mul]
  ring

section
variable {s : State} (h : s.configWellFormed) (hdoubles : s.doublingRelation)

include h hdoubles

/-- A division step multiplies by `x`, adds the element, and takes the dropped multiple of the generator polynomial away
(R126, R139). -/
theorem packedPoly_divStep {r : BitVec s.width.bits} (hr : highClear r s.clen.toNat) (e : FieldElem) :
    packedPoly α (divStep s.gen s.clen.toNat r e)
      = X * packedPoly α r + C (fieldValue α e)
        - C (fieldValue α (unpack r (s.clen.toNat - 1))) * s.generatorPoly α := by
  have htwoPoly : (2 : K[X]) = 0 := by rw [← C_ofNat, htwo, C_0]
  have ⟨⟨hc1, hc⟩, _⟩ := h
  have hw : 5 ≤ s.width.bits := PackedWidth.five_le_bits hc1 hc
  have hpower : (X : K[X]) * X ^ (s.clen.toNat - 1) = X ^ s.clen.toNat := mul_pow_sub_one (by omega) X
  rw [divStep, packedPoly_addGenerators α htwo hroot hdoubles, mulx_snd (by omega), packedPoly_mulx_fst α hc1 hc hr,
    State.generatorPoly_eq α h, s.gen_zero]
  linear_combination C (fieldValue α (unpack r (s.clen.toNat - 1))) * packedPoly α s.genSh0 * htwoPoly
    - C (fieldValue α (unpack r (s.clen.toNat - 1))) * hpower

/-- The polynomial of a residue after `k` elements differs by a multiple of the generator polynomial from `x^k` times that
of the residue before, with the elements as the lower coefficients (R139). -/
theorem generatorPoly_dvd_feedAll {r : BitVec s.width.bits} (hr : highClear r s.clen.toNat) (es : List FieldElem) :
    s.generatorPoly α ∣ X ^ es.length * packedPoly α r + (messagePoly α es - X ^ es.length)
      - packedPoly α (feedAll s.gen s.clen.toNat r es) := by
  have ⟨⟨hc1, hc⟩, hgen⟩ := h
  induction es generalizing r with
  | nil => simp [messagePoly, feedAll]
  | cons e es ih =>
    obtain ⟨q, hq⟩ := ih (highClear_divStep hc1 hc hgen hr e)
    rw [packedPoly_divStep α htwo hroot h hdoubles hr] at hq
    refine ⟨q + X ^ es.length * C (fieldValue α (unpack r (s.clen.toNat - 1))), ?_⟩
    rw [messagePoly_cons, List.length_cons]
    have hfeed : feedAll s.gen s.clen.toNat r (e :: es)
        = feedAll s.gen s.clen.toNat (divStep s.gen s.clen.toNat r e) es := rfl
    rw [hfeed]
    linear_combination hq

/-- The residue of a sequence of elements is the remainder of its polynomial by the generator polynomial (R139). -/
theorem packedPoly_residueOf (es : List FieldElem) :
    packedPoly α (s.residueOf es) = messagePoly α es %ₘ s.generatorPoly α := by
  have ⟨⟨hc1, hc⟩, hgen⟩ := h
  have hone : highClear (1 : BitVec s.width.bits) s.clen.toNat := highClear_one hc1 hc
  obtain ⟨q, hq⟩ := generatorPoly_dvd_feedAll α htwo hroot h hdoubles hone es
  rw [packedPoly_one α (hc1.trans hc)] at hq
  have hsum : packedPoly α (s.residueOf es) + s.generatorPoly α * q = messagePoly α es := by
    rw [State.residueOf]
    linear_combination -hq
  nontriviality K
  have hdegree : (packedPoly α (s.residueOf es)).degree < (s.generatorPoly α).degree := by
    rw [State.degree_generatorPoly α h]
    exact degree_packedPoly_lt α hc (highClear_feedAll hc1 hc hgen hone es)
  exact ((div_modByMonic_unique q _ (State.monic_generatorPoly α h) ⟨hsum, hdegree⟩).2).symm

end

end

/-- Settles O57: the FEEDs after INIT leave the residue of their elements, which is the remainder. -/
theorem residueIsThePolynomialRemainder : Obligations.ResidueIsThePolynomialRemainder := by
  intro K _ α htwo hroot s es h hdoubles
  have hok : s.degreeOk s.clen = true := (s.degreeOk_iff s.clen).mpr (.inr h.1)
  have hrun : execAll (.init :: es.map .feed) s = .next (s.atRest (s.residueOf es)) :=
    (execAll_cons (exec_init s) _).trans (execAll_feeds_atRest hok 1 es)
  exact ⟨_, hrun, packedPoly_residueOf α htwo hroot h hdoubles es⟩

end Sys2Proof.Machine
end

section
/-! SUPPORT. The prefix sequencer command by command (R152, R153), and the count in SEQ_REMAIN (R38, R154). -/

namespace Sys2Proof.Machine

/-! ### SEQ_REMAIN -/

/-- A counter below another counts its next byte without wrapping (R37). -/
theorem toNat_seqIdx_succ {k l : BitVec 16} (h : k.toNat < l.toNat) : (k + 1).toNat = k.toNat + 1 := by
  have hl := l.isLt
  rw [BitVec.toNat_add, show (1 : BitVec 16).toNat = 1 from rfl, Nat.mod_eq_of_lt (by omega)]

section
variable {s : State} {l k : BitVec 16} (hl : s.seqLen = l) (hk : s.seqIdx = k)

include hl hk

/-- The elements to come in the high pass: one of each byte left, the separator, and the whole low pass (R38). -/
theorem State.toNat_seqRemain_of_hi (hp : s.phase = .hi) (hlt : k.toNat < l.toNat) :
    (s.readReg .seqRemain).toNat = (l.toNat - k.toNat) + 1 + l.toNat := by
  subst hl hk
  have hinv : s.seqInv := by rwa [State.seqInv, if_neg (by simp [hp])]
  exact (State.toNat_seqRemain hinv).trans (by simp only [State.remaining, hp])

/-- The elements to come in the low pass: one of each byte left (R38). -/
theorem State.toNat_seqRemain_of_lo (hp : s.phase = .lo) (hlt : k.toNat < l.toNat) :
    (s.readReg .seqRemain).toNat = l.toNat - k.toNat := by
  subst hl hk
  have hinv : s.seqInv := by rwa [State.seqInv, if_neg (by simp [hp])]
  exact (State.toNat_seqRemain hinv).trans (by simp only [State.remaining, hp])

end

/-- At rest nothing is to come (R38). -/
theorem State.seqRemain_of_idle {s : State} (hp : s.phase = .idle) : s.readReg .seqRemain = 0 := by
  simp only [State.readReg, State.seqRemain, hp]

/-- A prefix of a positive number of bytes has `2n + 1` elements to come (R152, R154). -/
theorem State.toNat_seqRemain_begin (s : State) {n : BitVec 16} (hn : n ≠ 0) :
    (State.readReg { s with phase := .hi, seqLen := n, seqIdx := 0 } .seqRemain).toNat = 2 * n.toNat + 1 := by
  have hpos : (0 : BitVec 16).toNat < n.toNat := Nat.pos_of_ne_zero fun h => hn (BitVec.eq_of_toNat_eq h)
  rw [State.toNat_seqRemain_of_hi (l := n) (k := 0) rfl rfl rfl hpos, show (0 : BitVec 16).toNat = 0 from rfl]
  omega

/-! ### PFXB -/

/-- Settles O39: PFXB checks CLEN for n = 0 only, and then does the FEED of the separator. -/
theorem pfxbBeginsASequence : Obligations.PfxbBeginsASequence := by
  refine ⟨fun n => toNat_encode (.pfxb n), fun v s => ?word,
    fun s n hn => ⟨_, exec_pfxb_of_ne_zero hn s, rfl, s.toNat_seqRemain_begin hn⟩, fun s hc => ?degreeRange,
    fun s hc => ?separator⟩
  case word => exact reservedBitRaisesReservedBits v s (0x70000000, 0xFFFF0000) (tableRow_mem (.pfxb 0))
  case degreeRange =>
    exact exec_of_failure (c := .degreeRange) (if_neg (mt (s.degreeOk_iff s.clen).mp hc))
  case separator =>
    have hok : s.degreeOk s.clen = true := (s.degreeOk_iff s.clen).mpr hc
    refine ⟨_, exec_feed_of_degreeOk hok s.sep, exec_pfxb_zero_of_degreeOk hok, fun t ht => ?_⟩
    cases (exec_pfxb_zero_of_degreeOk hok).symm.trans ht
    rfl

/-! ### PFXD -/

/-- An idle sequencer rejects every byte (R153, R174). -/
theorem exec_pfxd_of_idle {s : State} (hp : s.phase = .idle) (b : Byte) : exec (.pfxd b) s = .next (s.rejected 5) :=
  exec_of_failure (c := .seqState) (if_pos hp)

/-- In a sequence an illegal CLEN rejects the byte (R153). -/
theorem exec_pfxd_of_degreeRange {s : State} (hp : s.phase ≠ .idle) (hc : ¬s.clenLegal) (b : Byte) :
    exec (.pfxd b) s = .next (s.rejected 6) :=
  exec_of_failure (c := .degreeRange) ((if_neg hp).trans (if_neg (mt (s.degreeOk_iff s.clen).mp hc)))

section
variable {s : State} (hok : s.degreeOk s.clen = true)

include hok

/-- A byte before the last of the high pass feeds its high element and is counted (R153). -/
theorem exec_pfxd_hi_of_not_last (hp : s.phase = .hi) (hnext : s.seqIdx + 1 ≠ s.seqLen) (b : Byte) :
    exec (.pfxd b) s
      = .next { s with
          residue := feedAll s.gen s.clen.toNat s.residue [highElem b]
          seqIdx := s.seqIdx + 1 } := by
  have hlast : s.lastOfPass = false := beq_false_of_ne hnext
  rw [exec_pfxd_of_hi hok hp, State.prefixHigh, hlast]
  simp [hp, feedAll]

/-- The last byte of the high pass feeds its high element and the separator, and the low pass begins (R153). -/
theorem exec_pfxd_hi_of_last (hp : s.phase = .hi) (hlast : s.seqIdx + 1 = s.seqLen) (b : Byte) :
    exec (.pfxd b) s
      = .next { s with
          residue := feedAll s.gen s.clen.toNat s.residue [highElem b, s.sep]
          phase := .lo
          seqIdx := 0 } := by
  have hlast : s.lastOfPass = true := beq_iff_eq.mpr hlast
  rw [exec_pfxd_of_hi hok hp, State.prefixHigh, hlast]
  rfl

/-- A byte before the last of the low pass feeds its low element and is counted (R153). -/
theorem exec_pfxd_lo_of_not_last (hp : s.phase = .lo) (hnext : s.seqIdx + 1 ≠ s.seqLen) (b : Byte) :
    exec (.pfxd b) s
      = .next { s with
          residue := feedAll s.gen s.clen.toNat s.residue [lowElem b]
          seqIdx := s.seqIdx + 1 } := by
  have hlast : s.lastOfPass = false := beq_false_of_ne hnext
  rw [exec_pfxd_of_lo hok hp, State.prefixLow, hlast]
  simp [hp, feedAll]

/-- The last byte of the low pass feeds its low element, and the sequence is over (R153). -/
theorem exec_pfxd_lo_of_last (hp : s.phase = .lo) (hlast : s.seqIdx + 1 = s.seqLen) (b : Byte) :
    exec (.pfxd b) s
      = .next { s with
          residue := feedAll s.gen s.clen.toNat s.residue [lowElem b]
          phase := .idle
          seqLen := 0
          seqIdx := 0 } := by
  have hlast : s.lastOfPass = true := beq_iff_eq.mpr hlast
  rw [exec_pfxd_of_lo hok hp, State.prefixLow, hlast]
  rfl

end

/-- Settles O40: in each position of the sequencer the byte takes the division steps of the FEEDs named there. -/
theorem pfxdDeliversOneByte : Obligations.PfxdDeliversOneByte := by
  refine ⟨fun b => toNat_encode (.pfxd b), fun v s => ?word, fun s b hp => exec_pfxd_of_idle hp b,
    fun s b hp hc => exec_pfxd_of_degreeRange hp hc b, fun s b hc => ?byte⟩
  case word => exact reservedBitRaisesReservedBits v s (0x80000000, 0xFFFFFF00) (tableRow_mem (.pfxd 0))
  case byte =>
    have hok : s.degreeOk s.clen = true := (s.degreeOk_iff s.clen).mpr hc
    rw [← highElem_eq, ← lowElem_eq]
    exact ⟨fun hp hnext => ⟨_, execAll_feeds hok [highElem b], exec_pfxd_hi_of_not_last hok hp hnext b⟩,
      fun hp hlast => ⟨_, execAll_feeds hok [highElem b, s.sep], exec_pfxd_hi_of_last hok hp hlast b⟩,
      fun hp hnext => ⟨_, execAll_feeds hok [lowElem b], exec_pfxd_lo_of_not_last hok hp hnext b⟩,
      fun hp hlast => ⟨_, execAll_feeds hok [lowElem b], exec_pfxd_lo_of_last hok hp hlast b⟩⟩

/-! ### A whole prefix -/

/-- The high pass and the low pass yield an element of each byte, and the separator is one more (R150). -/
theorem length_prefixContribution (sep : FieldElem) (bytes : List Byte) :
    (prefixContribution sep bytes).length = 2 * bytes.length + 1 := by
  simp only [prefixContribution, List.length_append, List.length_map, List.length_singleton]
  omega

/-- Settles O41: the delivery and the FEEDs take the same division steps. -/
theorem prefixDeliveryFeedsItsContribution : Obligations.PrefixDeliveryFeedsItsContribution := by
  intro s bytes hc hbytes
  have hok : s.degreeOk s.clen = true := (s.degreeOk_iff s.clen).mpr hc
  exact ⟨length_prefixContribution s.sep bytes, _, execAll_feeds hok _, execAll_prefixCommands hok hbytes⟩

/-! ### The count -/

section
variable {s : State} (hok : s.degreeOk s.clen = true) (hk : s.seqIdx.toNat < s.seqLen.toNat) (b : Byte)

include hok hk

/-- A byte of the high pass lowers SEQ_REMAIN by its element, the last one by the separator too (R154). -/
theorem exec_pfxd_hi_seqRemain (hp : s.phase = .hi) : ∃ t, exec (.pfxd b) s = .next t ∧
    (t.readReg .seqRemain).toNat + (if s.seqIdx + 1 = s.seqLen then 2 else 1) = (s.readReg .seqRemain).toNat := by
  have hsucc := toNat_seqIdx_succ hk
  by_cases hlast : s.seqIdx + 1 = s.seqLen
  · obtain ⟨t, ht, hphase, hlen, hidx⟩ :
        ∃ t, exec (.pfxd b) s = .next t ∧ t.phase = .lo ∧ t.seqLen = s.seqLen ∧ t.seqIdx = 0 :=
      ⟨_, exec_pfxd_hi_of_last hok hp hlast b, rfl, rfl, rfl⟩
    refine ⟨t, ht, ?_⟩
    rw [State.toNat_seqRemain_of_lo hlen hidx hphase (Nat.zero_lt_of_lt hk),
      State.toNat_seqRemain_of_hi rfl rfl hp hk, if_pos hlast, ← hlast, hsucc,
      show (0 : BitVec 16).toNat = 0 from rfl]
    omega
  · obtain ⟨t, ht, hphase, hlen, hidx⟩ :
        ∃ t, exec (.pfxd b) s = .next t ∧ t.phase = .hi ∧ t.seqLen = s.seqLen ∧ t.seqIdx = s.seqIdx + 1 :=
      ⟨_, exec_pfxd_hi_of_not_last hok hp hlast b, hp, rfl, rfl⟩
    refine ⟨t, ht, ?_⟩
    rw [State.toNat_seqRemain_of_hi hlen hidx hphase (seqIdx_succ hk hlast),
      State.toNat_seqRemain_of_hi rfl rfl hp hk, if_neg hlast, hsucc]
    omega

/-- A byte of the low pass lowers SEQ_REMAIN by its element, and the sequence ends when it comes to 0 (R154). -/
theorem exec_pfxd_lo_seqRemain (hp : s.phase = .lo) : ∃ t, exec (.pfxd b) s = .next t ∧
    (t.readReg .seqRemain).toNat + 1 = (s.readReg .seqRemain).toNat ∧
    (t.phase = .idle ↔ (t.readReg .seqRemain).toNat = 0) := by
  have hsucc := toNat_seqIdx_succ hk
  by_cases hlast : s.seqIdx + 1 = s.seqLen
  · refine ⟨_, exec_pfxd_lo_of_last hok hp hlast b, ?_⟩
    rw [State.seqRemain_of_idle rfl, State.toNat_seqRemain_of_lo rfl rfl hp hk, ← hlast, hsucc]
    simp
  · have hnext := seqIdx_succ hk hlast
    obtain ⟨t, ht, hphase, hlen, hidx⟩ :
        ∃ t, exec (.pfxd b) s = .next t ∧ t.phase = .lo ∧ t.seqLen = s.seqLen ∧ t.seqIdx = s.seqIdx + 1 :=
      ⟨_, exec_pfxd_lo_of_not_last hok hp hlast b, hp, rfl, rfl⟩
    refine ⟨t, ht, ?_⟩
    rw [State.toNat_seqRemain_of_lo hlen hidx hphase hnext, State.toNat_seqRemain_of_lo rfl rfl hp hk, hphase]
    simp only [reduceCtorEq, false_iff]
    omega

end

/-- Settles O42: PFXB starts the count at the length of the contribution, and each byte takes from it what it feeds. -/
theorem seqRemainCountsExactly : Obligations.SeqRemainCountsExactly := by
  refine ⟨fun s t n hc ht => ?_, fun s b hinv hc => ?_⟩
  · obtain ⟨-, -, hbegin, -, hzero⟩ := pfxbBeginsASequence
    split
    next hn =>
      subst hn
      obtain ⟨r, -, -, hremain⟩ := hzero s hc
      rw [hremain t ht]
      rfl
    next hn =>
      obtain ⟨u, hu, -, hremain⟩ := hbegin s n hn
      cases hu.symm.trans ht
      exact hremain
  · have hok : s.degreeOk s.clen = true := (s.degreeOk_iff s.clen).mpr hc
    have hk (hp : s.phase ≠ .idle) : s.seqIdx.toNat < s.seqLen.toNat := by rwa [State.seqInv, if_neg hp] at hinv
    exact ⟨fun hp => exec_pfxd_hi_seqRemain hok (hk (by simp [hp])) b hp,
      fun hp => exec_pfxd_lo_seqRemain hok (hk (by simp [hp])) b hp⟩

end Sys2Proof.Machine
end

section
/-! SUPPORT. The interface control commands: NOP (R165) and CLRERR (R166). -/

namespace Sys2Proof.Machine

/-- NOP performs nothing (R165). -/
theorem exec_nop (s : State) : exec .nop s = .next s := rfl

/-- Settles O22: NOP has no operand, so any other word with its opcode has a reserved bit set. -/
theorem nopChangesNothing : Obligations.NopChangesNothing :=
  ⟨rfl, exec_nop, fun _ s hopcode hne => runCommand_of_no_operand (i := .nop) rfl hopcode hne s⟩

/-- CLRERR clears the error record (R166). -/
theorem exec_clrerr (s : State) : exec .clrerr s = .next s.clearError := rfl

/-- Clearing an empty error record changes nothing (R166). -/
theorem State.clearError_of_empty {s : State} (herr : s.err = false) (hcode : s.errcode = 0) : s.clearError = s := by
  cases s
  cases herr
  cases hcode
  rfl

/-- Settles O23: on an empty record the invariant puts ERRCODE at 0 too, so there is nothing to clear. -/
theorem clrerrClearsTheErrorRecord : Obligations.ClrerrClearsTheErrorRecord := by
  refine ⟨rfl, exec_clrerr, fun s hinv herr => ?emptyRecord,
    fun _ s hopcode hne => runCommand_of_no_operand (i := .clrerr) rfl hopcode hne s⟩
  case emptyRecord =>
    obtain ⟨hzero, -⟩ := hinv
    rw [exec_clrerr, State.clearError_of_empty herr (hzero.mpr herr)]

end Sys2Proof.Machine
end

section
/-! SUPPORT. The exception model: a command word is rejected with the code of its first failing check or raises nothing
(R172, R174); the block never stops on one (R170); and a second host is refused (R183). -/

namespace Sys2Proof.Machine

/-! ### The checks of a command -/

/-- A command whose checks all pass is performed (R170, R172). -/
theorem exec_of_failure_eq_none {i : Instr} {s : State} (h : s.failure i = none) : exec i s = .next (s.perform i) := by
  rw [exec_eq, h]

/-- The degrees that DEGREE_RANGE is raised for (R172). -/
theorem State.degreeOk_eq_false_iff (s : State) (d : BitVec 5) :
    s.degreeOk d = false ↔ s.width.bits > 0 ∧ (d = 0 ∨ d.toNat > s.width.slots) := by
  refine ⟨fun h => ?_, fun ⟨hw, hd⟩ => State.degreeOk_false hw hd⟩
  rw [← Bool.not_eq_true, State.degreeOk_iff] at h
  by_cases hd : d = 0
  · exact ⟨by omega, .inl hd⟩
  · have hpos : d.toNat ≠ 0 := fun h0 => hd (BitVec.eq_of_toNat_eq h0)
    exact ⟨by omega, .inr (by omega)⟩

/-- The slots that SLOT_RANGE is raised for (R172). -/
theorem State.slotOk_eq_false_iff (s : State) (n : BitVec 5) :
    s.slotOk n = false ↔ s.width.bits > 0 ∧ n.toNat ≥ s.width.slots := by
  rw [← Bool.not_eq_true, State.slotOk_iff]
  omega

/-- The degree check of R172 and the block's raise the same code, 0 for none. -/
theorem State.degreeCheck_code (s : State) (d : BitVec 5) :
    (if s.width.bits > 0 ∧ (d = 0 ∨ d.toNat > s.width.slots) then 6 else 0)
      = (if s.degreeOk d then none else some ErrorCode.degreeRange).elim 0 ErrorCode.code := by
  simp only [← State.degreeOk_eq_false_iff]
  cases s.degreeOk d <;> rfl

/-- The checks of R172 in the order of R174 are those the block makes: the code expected is that of the error raised, 0
for none. -/
theorem State.expectedError_eq (s : State) (i : Instr) : s.expectedError i = (s.failure i).elim 0 ErrorCode.code := by
  cases i with
  | nop | init | check | clrerr => rfl
  | feed | tgt => exact s.degreeCheck_code s.clen
  | mulx d a => exact s.degreeCheck_code d
  | unpack src n =>
    by_cases hsrc : src = 7
    · subst hsrc
      rfl
    · obtain ⟨p, hp⟩ := exists_ofNumber_of_ne_seven hsrc
      simp only [State.expectedError, State.failure, if_neg hsrc, hp, ← State.slotOk_eq_false_iff]
      cases s.slotOk n <;> rfl
  | pfxb n =>
    by_cases hn : n = 0
    · simpa only [State.expectedError, State.failure, hn, true_and, if_true] using s.degreeCheck_code s.clen
    · simp only [State.expectedError, State.failure, hn, false_and, if_false, Option.elim_none]
  | pfxd b =>
    by_cases hp : s.phase = .idle
    · simp only [State.expectedError, State.failure, if_pos hp, Option.elim_some, ErrorCode.code]
    · simpa only [State.expectedError, State.failure, if_neg hp] using s.degreeCheck_code s.clen

/-- No code of R171 is 0, the code of no error. -/
theorem ErrorCode.code_ne_zero (c : ErrorCode) : c.code ≠ 0 := by
  cases c <;> decide

/-- A command that no check of R172 stops is performed. -/
theorem exec_of_expectedError_eq_zero {i : Instr} {s : State} (h : s.expectedError i = 0) :
    exec i s = .next (s.perform i) := by
  rw [State.expectedError_eq] at h
  cases hf : s.failure i with
  | none => exact exec_of_failure_eq_none hf
  | some c =>
    rw [hf, Option.elim_some] at h
    exact absurd h c.code_ne_zero

/-- A command that a check of R172 stops is rejected with the code of the first (R170, R174). -/
theorem exec_of_expectedError_ne_zero {i : Instr} {s : State} (h : s.expectedError i ≠ 0) :
    exec i s = .next (s.rejected (s.expectedError i)) := by
  rw [State.expectedError_eq] at h ⊢
  cases hf : s.failure i with
  | none =>
    rw [hf] at h
    exact absurd rfl h
  | some c => exact exec_of_failure hf

/-- Settles O49: the words that are no command by O3 and O4, and a command by the code of its first failing check, 0
when it is performed. -/
theorem checksOfEachCommand : Obligations.ChecksOfEachCommand := fun v s =>
  ⟨reservedOpcodeRaisesIllegalOpcode v s, reservedBitRaisesReservedBits v s,
    fun _ hdec hzero =>
      ⟨_, (runCommand_of_decode_ok hdec s).trans (exec_of_expectedError_eq_zero hzero), s.errorRecord_perform⟩,
    fun _ hdec hcode => (runCommand_of_decode_ok hdec s).trans (exec_of_expectedError_ne_zero hcode)⟩

/-! ### The step goes on -/

/-- No command touches the port's queue or the width (R8, R17). -/
theorem Effect.pending_width {s t : State} (he : Effect s t) : t.pending = s.pending ∧ t.width = s.width := by
  cases he <;> exact ⟨rfl, rfl⟩

/-- No register write touches the port's queue or the width. -/
theorem State.pending_width_writeReg (s : State) (r : WindowReg) (v : Word) :
    (s.writeReg r v).pending = s.pending ∧ (s.writeReg r v).width = s.width := by
  unfold State.writeReg
  split <;> exact ⟨rfl, rfl⟩

/-- Every event but a second host's is answered by a next state: an illegal access by a bus error (R64), a rejected
command as done (R170). The events behind it stay queued. -/
theorem deliver_next {e : PortEvent} (he : e ≠ .secondHost) (s : State) :
    ∃ t, deliver e s = .next t ∧ t.pending = s.pending ∧ t.width = s.width := by
  cases e with
  | read size off =>
    obtain ⟨r, hr⟩ := deliver_read_frame size off s
    exact ⟨_, hr, rfl, rfl⟩
  | write size off v =>
    rcases busWrite_cases size off v s with ⟨-, hw⟩ | ⟨-, hw⟩ | ⟨r, -, -, hw⟩
    · exact ⟨_, hw, rfl, rfl⟩
    · obtain ⟨t, ht, heff⟩ := runCommand_effect v { s with response := .done }
      exact ⟨t, hw.trans ht, heff.pending_width⟩
    · exact ⟨_, hw, s.pending_width_writeReg r v⟩
  | resetPulse => exact ⟨_, rfl, rfl, rfl⟩
  | secondHost => exact absurd rfl he

/-- Settles O11: an idle step keeps the empty queue, and any other delivers the event at its head. -/
theorem theBlockNeverStops : Obligations.TheBlockNeverStops := by
  intro s hhead
  cases hp : s.pending with
  | nil => exact ⟨s, step_of_pending_nil hp, hp, rfl⟩
  | cons e rest =>
    have he : e ≠ .secondHost := fun h => hhead (by rw [hp, h, List.head?_cons])
    rw [step_of_pending_cons hp]
    exact deliver_next he { s with pending := rest }

/-- Settles O12: the event at the head of the queue is refused as it is delivered. -/
theorem secondHostIsRefused : Obligations.SecondHostIsRefused := fun _ _ hp => step_of_pending_cons hp

end Sys2Proof.Machine
end

section
/-! SUPPORT. The boot sequence (R192), stage by stage: reset and CFG, the generators, TARGET, then CHECK, CLRERR and INIT. -/

namespace Sys2Proof.Machine

/-! ### Lists of events -/

/-- The events of a list split where the list does (R73). -/
theorem deliverAll_append {a : List PortEvent} {s t : State} (h : deliverAll a s = .next t) (b : List PortEvent) :
    deliverAll (a ++ b) s = deliverAll b t := by
  induction a generalizing s with
  | nil =>
    cases h
    rfl
  | cons e a ih =>
    simp only [List.cons_append, deliverAll] at h ⊢
    cases hd : deliver e s with
    | next u =>
      simp only [hd] at h ⊢
      exact ih h
    | fault | refused =>
      simp only [hd] at h
      cases h

/-- The first event of a list is delivered before the others (R73). -/
theorem deliverAll_cons {e : PortEvent} {s t : State} (h : deliver e s = .next t) (es : List PortEvent) :
    deliverAll (e :: es) s = deliverAll es t := by
  simp only [deliverAll, h]

/-- A read of a mapped register, as the step that delivers it (R79). -/
theorem deliver_read {off : Nat} {r : WindowReg} (hr : WindowReg.at off = some r) (s : State) :
    deliver (.read .b32 off) s = .next { s with response := .data (s.readReg r) } :=
  step_read (s := { s with pending := .read .b32 off :: s.pending }) rfl hr

/-- A write to a mapped register other than CMD, as the step that delivers it (R79). -/
theorem deliver_write {off : Nat} {r : WindowReg} (hr : WindowReg.at off = some r) (hcmd : r ≠ .cmd) (v : Word)
    (s : State) : deliver (.write .b32 off v) s = .next { s.writeReg r v with response := .done } :=
  step_write (s := { s with pending := .write .b32 off v :: s.pending }) rfl hr hcmd

/-- A command's own word, written to CMD, runs the command (R99). -/
theorem deliver_commandWrite (i : Instr) (s : State) :
    deliver (commandWrite i) s = exec i { s with response := .done } :=
  runCommand_of_decode_ok (decodeOfEncodeIsTheCommand i) _

/-! ### The stages -/

/-- The state after reset, with CFG written by the host (R192 steps 1 to 3). -/
def HostConfig.configured (c : HostConfig) (s : State) : State :=
  { State.resetOf s.width with
    clenField := if s.width.bits = 0 then 0 else c.clen
    sep := c.sep
    pending := s.pending
    response := .done }

/-- A state with TARGET, the generators and CODE_LENGTH written by the host, which clears CFG_OK (R192 step 3). -/
def HostConfig.loaded (c : HostConfig) (s : State) : State :=
  { s with
    genSh0 := (c.gen.getD 0 0).setWidth s.width.bits
    genSh1 := (c.gen.getD 1 0).setWidth s.width.bits
    genSh2 := (c.gen.getD 2 0).setWidth s.width.bits
    genSh3 := (c.gen.getD 3 0).setWidth s.width.bits
    genSh4 := (c.gen.getD 4 0).setWidth s.width.bits
    target := c.target.setWidth s.width.bits
    codeLength := c.codeLength
    cfgOk := false
    response := .done }

/-- A state after CHECK, CLRERR and INIT, answered (R192 steps 4 to 6). -/
def State.started (s : State) : State :=
  { s with
    residue := 1#s.width.bits
    err := false
    cfgOk := s.diagnostic == 0
    errcode := 0
    result := s.diagnostic
    phase := .idle
    seqLen := 0
    seqIdx := 0
    response := .done }

/-- The word the host writes to CFG holds CLEN and SEP in their fields (R28, R30). -/
theorem cfgWord_fields (clen sep : BitVec 5) :
    ((sep.setWidth 32 <<< 8) ||| clen.setWidth 32 : Word).extractLsb' 0 5 = clen ∧
      ((sep.setWidth 32 <<< 8) ||| clen.setWidth 32 : Word).extractLsb' 8 5 = sep :=
  ⟨extractLsb'_eq_of_bits fun p => by fin_cases p <;> simp,
    extractLsb'_eq_of_bits fun p => by fin_cases p <;> simp⟩

/-- Reset, the reads of ID and PARAM, and the write to CFG (R192 steps 1 to 3). -/
theorem deliverAll_reset_cfg (c : HostConfig) (s : State) :
    deliverAll [.resetPulse, .read .b32 0x000, .read .b32 0x004,
      .write .b32 0x008 ((c.sep.setWidth 32 <<< 8) ||| c.clen.setWidth 32)] s = .next (c.configured s) := by
  obtain ⟨hclen, hsep⟩ := cfgWord_fields c.clen c.sep
  rw [deliverAll_cons (t := { State.resetOf s.width with pending := s.pending }) rfl,
    deliverAll_cons (deliver_read (r := .id) rfl _), deliverAll_cons (deliver_read (r := .param) rfl _),
    deliverAll_cons (deliver_write (r := .cfg) rfl (by decide) _ _)]
  simp only [State.writeReg, hclen, hsep]
  rfl

/-- LDPK of one generator after the other (R101). -/
theorem deliverAll_loadGens (x : Fin 5 → BitVec 128) (is : List (Fin 5)) (s : State) :
    deliverAll (is.flatMap fun i => loadPacked (.genSh i) (x i)) s
      = .next (is.foldl (fun t i => t.storeGen i ((x i).setWidth t.width.bits)) s) := by
  induction is generalizing s with
  | nil => rfl
  | cons i is ih =>
    rw [List.flatMap_cons, deliverAll_append ((fourWritesLoadAPackedRegister s (x i)).2 i), ih]
    rfl

/-- The generators, TARGET and CODE_LENGTH, written one after the other (R192 step 3). -/
theorem deliverAll_load (c : HostConfig) (s : State) :
    deliverAll ((([0, 1, 2, 3, 4] : List (Fin 5)).flatMap fun i => loadPacked (.genSh i) (c.gen.getD i.val 0))
      ++ loadPacked .target c.target ++ [.write .b32 0x00C c.codeLength]) s = .next (c.loaded s) := by
  have hgens := deliverAll_loadGens (fun i => c.gen.getD i.val 0) [0, 1, 2, 3, 4] s
  rw [deliverAll_append ((deliverAll_append hgens _).trans (fourWritesLoadAPackedRegister _ c.target).1),
    deliverAll_cons (deliver_write (r := .codeLength) rfl (by decide) _ _)]
  simp [deliverAll, State.writeReg, State.storeGen, State.setGen, HostConfig.loaded]

/-- CHECK, a read of STATUS, CLRERR and INIT (R192 steps 4 to 6). -/
theorem deliverAll_check_clrerr_init (s : State) :
    deliverAll [commandWrite .check, .read .b32 0x010, commandWrite .clrerr, commandWrite .init] s
      = .next s.started := by
  rw [deliverAll_cons (deliver_commandWrite .check s), deliverAll_cons (deliver_read (r := .status) rfl _),
    deliverAll_cons (deliver_commandWrite .clrerr _), deliverAll_cons (deliver_commandWrite .init _)]
  simp only [deliverAll, State.started, State.setVerdict, State.clearError, State.seqIdle]
  rfl

/-- The boot sequence loads the host's configuration over the reset state, and starts the block on it (R192). -/
theorem deliverAll_bootEvents (c : HostConfig) (s : State) :
    deliverAll (bootEvents c) s = .next (c.loaded (c.configured s)).started := by
  have hload := (deliverAll_append (deliverAll_reset_cfg c s) _).trans (deliverAll_load c (c.configured s))
  rw [← deliverAll_check_clrerr_init, ← deliverAll_append hload]
  simp only [bootEvents, List.append_assoc, List.singleton_append]

/-! ### The booted state -/

/-- Each generator is loaded with the low W bits of the host's value (R67, R192). -/
theorem HostConfig.gen_loaded (c : HostConfig) (s : State) (i : Fin 5) :
    (c.loaded s).gen i = (c.gen.getD i.val 0).setWidth s.width.bits := by
  fin_cases i <;> rfl

/-- CLEN as the host wrote it, and 0 at width 0 (R29, R192). -/
theorem HostConfig.clen_configured (c : HostConfig) (s : State) :
    (c.configured s).clen = if s.width.bits = 0 then 0 else c.clen := by
  by_cases h : s.width.bits = 0
  · exact (if_pos h).trans (if_pos h).symm
  · exact if_neg h

/-- CFG_OK after boot is CHECK's verdict: CLRERR and INIT keep it, and the configuration it judged (R123, R192). -/
theorem State.cfgOk_started (s : State) :
    s.started.cfgOk = true ↔ s.started.lengthCondition ∧ s.started.doublingRelation :=
  s.cfgOk_setVerdict_diagnostic

/-- Settles O21: the boot sequence ends in the host's configuration loaded over the reset state, checked and started. -/
theorem bootLoadsAndChecksTheConfiguration : Obligations.BootLoadsAndChecksTheConfiguration := by
  intro s c _
  refine ⟨_, deliverAll_bootEvents c s, rfl, rfl, c.clen_configured s, rfl, rfl, ?_, ?_, ?_, rfl, rfl, rfl, rfl, rfl, ?_⟩
  · exact BitVec.toNat_setWidth ..
  · exact fun i => (congrArg BitVec.toNat (c.gen_loaded (c.configured s) i)).trans (BitVec.toNat_setWidth ..)
  · exact State.residue_resetOf s.width
  · exact State.cfgOk_started _

end Sys2Proof.Machine
end

section
/-! SUPPORT. A TARGET beyond the generator degree (R199). -/

namespace Sys2Proof.Machine

/-- The residue of a sequence of elements lies below degree CLEN: it starts at ONE, and division steps keep it there (R44). -/
theorem State.highClear_residueOf {s : State} (h : s.configWellFormed) (es : List FieldElem) :
    highClear (s.residueOf es) s.clen.toNat :=
  have ⟨⟨hc1, hc⟩, hgen⟩ := h
  highClear_feedAll hc1 hc hgen (highClear_one hc1 hc) es

/-- Settles O54: a TARGET that is reached would lie below degree CLEN, as every residue does. -/
theorem targetBeyondTheDegreeIsNeverReached : Obligations.TargetBeyondTheDegreeIsNeverReached :=
  fun _ es h hbeyond hreach => hbeyond (hreach ▸ State.highClear_residueOf h es)

end Sys2Proof.Machine
end

section
/-! SUPPORT. The word that `withFetchWord` places (log 4). -/

namespace Sys2Proof.Machine

/-- The event placed for a 32-bit word is its write to CMD (R90, R98). -/
theorem commandEvent_of_lt {w : Nat} (hw : w < 2 ^ 32) :
    commandEvent 32 w = .write .b32 0x018 (BitVec.ofNat 32 w) := by
  rw [commandEvent, Nat.mod_eq_of_lt hw]
  rfl

/-- Settles O9: the placed event is a write to CMD at the head of the queue, and the step takes it off again. -/
theorem placedWordIsTheNextCommand : Obligations.PlacedWordIsTheNextCommand := by
  intro s w hw
  have hpending : (s.withFetchWord 32 w).pending = .write .b32 0x018 (BitVec.ofNat 32 w) :: s.pending :=
    congrArg (· :: s.pending) (commandEvent_of_lt hw)
  exact step_command hpending

end Sys2Proof.Machine
end

section
/-! SUPPORT. MULX at another degree than CLEN, where R44's invariant ends (R111, log 14). -/

namespace Sys2Proof.Machine

/-- At another degree than `c`, `mulx` moves slot `c - 1` up instead of dropping it: where that slot has a bit set, the
result does not lie below degree `c` (R111). -/
theorem not_highClear_mulx {w c d i : Nat} (hc1 : 1 ≤ c) (hc : c ≤ w / 5) (hd : 1 ≤ d) (hne : d ≠ c) (hi : i < 5)
    (hw : 5 * c + i < w) {v : BitVec w} (hbit : v.getLsbD (5 * (c - 1) + i) = true) (a : FieldElem) :
    ¬highClear (mulx v d a).1 c := by
  intro hclear
  have hmoved : (mulx v d a).1.getLsbD (5 * c + i) = v.getLsbD (5 * (c - 1) + i) := by
    rw [getLsbD_mulx_fst_of_lt hd v a hw, if_neg (by omega), if_neg (by omega)]
    congr 1
    omega
  have hzero : (mulx v d a).1.getLsbD (5 * c + i) = false := (highClear_iff hc _).mp hclear _ (by omega)
  exact Bool.false_ne_true (hzero.symm.trans (hmoved.trans hbit))

/-- The block of width 32 after reset, with CLEN = 1 written: RESIDUE is ONE, the generators are 0 (R45). -/
def State.degreeOne : State := { State.resetOf .w32 with clenField := 1 }

/-- Its configuration is well-formed: generators that are 0 lie below every degree (R44). -/
theorem State.configWellFormed_degreeOne : State.degreeOne.configWellFormed :=
  ⟨by decide, fun i => (State.gen_resetOf .w32 i : State.degreeOne.gen i = 0) ▸ by decide⟩

/-- Settles O53: MULX 2, 0 on ONE with CLEN = 1. Degree 2 drops slot 1, so the 1 in slot 0 moves up to slot 1, which is
at CLEN. -/
theorem mulxAtAnotherDegreeLeavesTheResidueRange : Obligations.MulxAtAnotherDegreeLeavesTheResidueRange := by
  have hone : highClear (1#32) 1 := highClear_one (by decide) (by decide)
  have hleaves : ¬highClear (mulx (1#32) 2 0).1 1 :=
    not_highClear_mulx (i := 0) (by decide) (by decide) (by decide) (by decide) (by decide) (by decide) (by decide) 0
  exact ⟨State.degreeOne, _, 2, 0, rfl, State.configWellFormed_degreeOne, hone, by decide,
    exec_mulx_of_degreeOk (by decide) 0, hleaves⟩

end Sys2Proof.Machine
end
